-- ==== Sys2Proof/Word.lean ====
section
/-! DEFINITION. The word types of the block (spec `00_scope.md` rule R7): bytes, the 32-bit registers and operands,
and the widest element of a pack operation. -/

namespace Sys2Proof

/-- A byte: 8 bits (R7), the addressable unit of every storage space (R40). -/
abbrev Byte := BitVec 8

/-- 32 bits: `ID`, `TS`, the `ts` operand (R11, R14, R72), the clock and `timeoutMs` (`CLK_W` = 32, R6, R154). -/
abbrev Word32 := BitVec 32

/-- A pack element. Its pattern has `8*w` bits with `w` at most 8 (R93), so 64 bits hold every legal one. -/
abbrev Elem := BitVec 64

end Sys2Proof
end

