-- ==== Sys2Proof/Config.lean ====
section
/-! DEFINITION. The implementation parameters of spec `00_scope.md` rule R6: the constants the spec fixes, and the CRC8
table, which the spec leaves open. -/

namespace Sys2Proof.Config

/-- `CRC8_TABLE` (R6, R83, decision D1: OPEN). The spec gives no entry and no polynomial, so this constant has no value
anything could prove: a theorem about it holds for every table. Log 5. -/
opaque crc8Table : Byte → Byte

/-- `CRC_COVERS_COUNTER` (R6, R85, decision D2): false, the checksum covers `LEN-2` bytes. Log 6. -/
def crcCoversCounter : Bool := false

/-- The two parameters the checksum of a frame depends on. The shared operations take them as an argument, so that the
machine is written for every table and for both values of the flag (R83, R85). -/
structure Params where
  table : Byte → Byte
  coversCounter : Bool

/-- This hardware's parameters: the open table and the flag of R6. -/
def params : Params := { table := crc8Table, coversCounter := crcCoversCounter }

/-- DESIGN CHOICE (log 4): the number of slots `N_MSG` right after reset. R6 leaves it open ("2 is enough for every
example"); every operation is written for any number of slots. -/
def nMsg : Nat := 2

/-- `PACK_WIDTHS` (R6, decision D18): the admissible element widths of `MSG.PACKV`, in bytes. -/
def packWidths : List Nat := [1, 2, 4, 8]

/-- The start delimiter (R6, R60). -/
def startDelim : Byte := 0xAA

/-- The end delimiter (R6, R60). -/
def endDelim : Byte := 0xBB

/-- The bytes of a payload array (R6, R15). -/
abbrev payloadSize : Nat := 8

/-- The bytes of the scratch buffer (R6, R23). -/
abbrev scratchSize : Nat := 19

/-- The receive window: 18 bytes after the start delimiter (R6, R25). -/
def windowSize : Nat := 18

end Sys2Proof.Config
end

