-- ==== Sys2Proof/Syntax.lean ====
section
/-! DEFINITION. The eight operations of the block (spec `30_encoding.md` rule R72), and the command the caller presents
at the port (R71). -/

namespace Sys2Proof

/-- `CRCMODE`, the enumeration `None`, `CRC8` (R13, R70). -/
inductive CrcMode where
  | none
  | crc8
deriving DecidableEq, Repr

/-- The opaque `transportConfig` of `XCV.BEGIN` (R100, R5: not in the source). The block never looks inside, so a token
that can only be told apart from another stands for it. DESIGN CHOICE, log 11. -/
structure TransportConfig where
  token : Nat
deriving DecidableEq, Repr

/-- The operations, one constructor per row of `opcode_table.json`, with the typed operands of R72. -/
inductive Instr where
  /-- `CRC8.COMPUTE bytes` (R81). -/
  | crc8Compute (bytes : List Byte)
  /-- `MSG.INIT m, id, len, mode` (R90). -/
  | msgInit (m : Nat) (id : Word32) (len : Byte) (mode : CrcMode)
  /-- `MSG.PACKV m, w, vals` (R93). -/
  | msgPackv (m : Nat) (w : Nat) (vals : List Elem)
  /-- `MSG.PACKT m, text` (R94). -/
  | msgPackt (m : Nat) (text : List Byte)
  /-- `XCV.BEGIN cfg` (R100). -/
  | xcvBegin (cfg : TransportConfig)
  /-- `XCV.SEND m, ts` (R105). -/
  | xcvSend (m : Nat) (ts : Word32)
  /-- `XCV.RECV m, timeoutMs` (R115). -/
  | xcvRecv (m : Nat) (timeoutMs : Word32)
  /-- `XCV.GETFAULT` (R102). -/
  | xcvGetfault
deriving DecidableEq, Repr

/-- A command at the port: the 8-bit code `OP` "and the operands of that operation, all together" (R71). Operands are
"passed as typed values, not packed into a word": one wire per operand name of `opcode_table.json`. An operation reads its
own wires only; the others are idle. DESIGN CHOICE, log 1. -/
structure Command where
  op : Byte
  bytes : List Byte := []
  m : Nat := 0
  id : Word32 := 0
  len : Byte := 0
  mode : CrcMode := .none
  w : Nat := 0
  vals : List Elem := []
  text : List Byte := []
  cfg : TransportConfig := ⟨0⟩
  ts : Word32 := 0
  timeoutMs : Word32 := 0
deriving DecidableEq, Repr

end Sys2Proof
end

