-- ==== Sys2Proof/Machine/State.lean ====
section
/-! DEFINITION. The state of the block and of the environment a model must carry (spec `10_state.md` rules R10 to R28),
as plain data, and its value right after reset (R161). -/

namespace Sys2Proof.Machine

/-- The values of `XCV.FAULT` (R21, R70). Codes 5 to 7 are never written, so they are no value here. -/
inductive FaultReason where
  | none
  | timeout
  | noIncomingData
  | crcMismatch
  | missingEndDelimiter
deriving DecidableEq, Repr

/-- `STATUS` of a response (R70, R140). -/
inductive Status where
  | ok
  | fail
  | invalidConfig
deriving DecidableEq, Repr

/-- A response of the command port: a status and, for two operations, a result byte (R71). -/
structure Response where
  status : Status
  result : Option Byte
deriving DecidableEq, Repr

/-- `RX.STATE` (R24). -/
inductive RxState where
  | idle
  | awaitStart
  | readFixedWindow
deriving DecidableEq, Repr

/-- One message slot `MSG[m]` (R10). -/
structure Slot where
  /-- `ID` (R11). -/
  id : Word32
  /-- `LEN` (R12): 8 bits wide, 0 to 8 in every reachable state. -/
  len : Byte
  /-- `CRCMODE` (R13). -/
  crcMode : CrcMode
  /-- `TS` (R14). -/
  ts : Word32
  /-- `PAYLOAD[0..7]` (R15). -/
  payload : Vector Byte Config.payloadSize
  /-- `CTR` (R16). -/
  ctr : Byte
  /-- `CRC` (R17). -/
  crc : Byte
deriving DecidableEq, Repr

/-- The registers of the receive parser (R24 to R27). -/
structure Rx where
  /-- `RX.STATE` (R24). -/
  state : RxState
  /-- `RX.I`, the window index (R25). -/
  i : BitVec 5
  /-- `RX.T0`, the clock at the start of this byte's wait (R26). -/
  t0 : Word32
  /-- `RX.TMO`, the per-byte budget (R26). -/
  tmo : Word32
  /-- `RX.FOUND`, delimiter found (R27). -/
  found : Bool
  /-- `RX.M`, the slot of the receive in flight (R27). -/
  m : Nat
deriving DecidableEq, Repr

/-- One entry of the schedule: a move of the environment (R52), of the platform (R160), or the block's turn. -/
inductive Move where
  /-- The far end appends a byte to `RXQ` (R28, R52). -/
  | arrive (b : Byte)
  /-- The clock advances by `ms` milliseconds, modulo `2^32` (R28, R154). -/
  | advance (ms : Word32)
  /-- The platform applies the reset (R160, R163). -/
  | reset
  /-- The block moves: it polls the transport (R118), writes a byte of a frame or ends the send (R48, R109), or accepts a
  command (R71). -/
  | block
deriving DecidableEq, Repr

/-- The state of the machine. -/
structure State where
  /-- The message slots `MSG[0]` to `MSG[N_MSG-1]`; the length is `N_MSG` (R10). -/
  slots : List Slot
  /-- `XCV.INIT` (R20). -/
  init : Bool
  /-- `XCV.FAULT` (R21). -/
  fault : FaultReason
  /-- `XCV.SCRATCH[0..18]` (R23). -/
  scratch : Vector Byte Config.scratchSize
  /-- The receive parser (R24 to R27). -/
  rx : Rx
  /-- `RXQ`, bytes that have arrived and are unread, oldest first (R28). -/
  rxq : List Byte
  /-- `TXQ`, every byte written with `TxWrite`, oldest first (R28). -/
  txq : List Byte
  /-- `CLK`, the millisecond clock (R28, R154). -/
  clk : Word32
  /-- The tokens handed to the transport's `begin`, oldest first (R46, R100). The model's own form, log 11. -/
  begun : List TransportConfig
  /-- Commands the caller has presented and the block has not accepted, first to be accepted first (R50, R71). The
  model's own form, log 1. -/
  port : List Command
  /-- Responses given, oldest first (R71, R140). The model's own form, log 10. -/
  responses : List Response
  /-- The schedule: who moves next. Empty: the block moves. The model's own form, log 2. -/
  env : List Move
deriving DecidableEq, Repr

/-- Why the model stops with a fault. Each names an index outside its range; R41 shows that no reachable state forms one,
and the invariant `State.Inv` rules them out. Safe: the machine stops where the spec has no behaviour. Log 12. -/
inductive Fault where
  /-- A payload index outside 0 to 7, formed only from a `LEN` above 8. Raised by `XCV.SEND` and by the receive parser.
  Safe. -/
  | payloadIndex
  /-- `RX.I` above 17 while a window byte is awaited. Raised by the receive parser. Safe. -/
  | windowIndex
  /-- `RX.M` names no slot while a receive is in flight. Raised by the receive parser. Safe. -/
  | receiveSlot
deriving DecidableEq, Repr

/-- Why the model has no meaning for an operation. -/
inductive Refusal where
  /-- Raised by an arm of `exec` whose operation has no meaning yet, with its mnemonic; no arm does. Safe. -/
  | notModelled (mnemonic : String)
deriving DecidableEq, Repr

/-- A slot after reset (R161): what `MSG.INIT m, 0, 0, None` would make it. -/
def Slot.reset : Slot :=
  { id := 0, len := 0, crcMode := .none, ts := 0, payload := Vector.replicate Config.payloadSize 0, ctr := 0, crc := 0 }

/-- The parser after reset (R161): `Idle`. The other registers are unspecified and unobservable; DESIGN CHOICE 0, log 8. -/
def Rx.reset : Rx := { state := .idle, i := 0, t0 := 0, tmo := 0, found := false, m := 0 }

/-- The machine right after reset, with `n` slots (R161). `SCRATCH` is unspecified and unobservable: DESIGN CHOICE 0,
log 8. The streams and the clock are the environment's (R162): DESIGN CHOICE empty and 0, log 7. -/
def State.resetWith (n : Nat) : State :=
  { slots := List.replicate n Slot.reset
    init := false
    fault := .none
    scratch := Vector.replicate Config.scratchSize 0
    rx := Rx.reset
    rxq := []
    txq := []
    clk := 0
    begun := []
    port := []
    responses := []
    env := [] }

/-- The machine right after reset (R160, R161). -/
def State.reset : State := State.resetWith Config.nMsg

end Sys2Proof.Machine
end

