-- ==== Sys2Proof/Machine/Flags.lean ====
section
/-! DEFINITION. The codes of the enumerations (spec `30_encoding.md` rule R70) and the budget test of the receive parser
(`44_receive.md` rule R119). The block has no arithmetic flags. -/

namespace Sys2Proof.Machine

/-- The code of `CRCMODE` (R70). -/
def crcModeCode : CrcMode → BitVec 1
  | .none => 0
  | .crc8 => 1

/-- The 3-bit code of `XCV.FAULT` (R21, R70). -/
def faultCode : FaultReason → BitVec 3
  | .none => 0
  | .timeout => 1
  | .noIncomingData => 2
  | .crcMismatch => 3
  | .missingEndDelimiter => 4

/-- The 2-bit code of `STATUS` (R70). -/
def statusCode : Status → BitVec 2
  | .ok => 0
  | .fail => 1
  | .invalidConfig => 2

/-- The status a receive ends with: `OK` exactly when its fault is `None` (R130, R131, R142). -/
def statusOf : FaultReason → Status
  | .none => .ok
  | _ => .fail

/-- "`(NowMs() - RX.T0) mod 2^32 >= RX.TMO`" (R119). -/
def budgetSpent (s : State) : Bool := decide (s.rx.tmo ≤ s.clk - s.rx.t0)

end Sys2Proof.Machine
end

