-- ==== Sys2Proof/Machine/Operands.lean ====
section
/-! DEFINITION. Operand assembly: taking values apart into bytes, the receive fold, the length clamp, the pack capacity
(spec `30_encoding.md` rules R64 to R68, `41_message.md` rule R92). -/

namespace Sys2Proof.Machine

/-- Byte `i` of a value, `(v >> (8*i))[7:0]` (R43, R64, R65). -/
def leByte {n : Nat} (v : BitVec n) (i : Nat) : Byte := (v >>> (8 * i)).setWidth 8

/-- The first `w` bytes of a value, least significant first (R43). -/
def leBytes {n : Nat} (w : Nat) (v : BitVec n) : List Byte := (List.range w).map (leByte v)

/-- The fold (R68): the accumulator moves right 8 bits and the new byte goes into the top byte. -/
def fold (acc : Word32) (b : Byte) : Word32 := (acc >>> 8) ||| (b.setWidth 32 <<< 24)

/-- The length byte decoded, `min(b, 8)` (R67). -/
def clampLen (b : Byte) : Byte := if b ≤ 8 then b else 8

/-- The pack capacity of a slot (R92). It does not read `LEN` (R96). -/
def packCapacity : CrcMode → Nat
  | .crc8 => 6
  | .none => 8

/-- The bytes `MSG.PACKV` writes, from payload offset 0 (R93): each element's `w` bytes, in element order. -/
def elementBytes (w : Nat) (vals : List Elem) : List Byte := vals.flatMap (leBytes w)

/-- How many payload bytes the checksum covers (R85): `LEN-2`, or `LEN-1` with `CRC_COVERS_COUNTER`. -/
def coveredBytes (p : Config.Params) (len : Nat) : Nat := if p.coversCounter then len - 1 else len - 2

end Sys2Proof.Machine
end

