-- ==== Sys2Proof/Machine/Ops.lean ====
section
/-! DEFINITION. The named operations every meaning is built from: byte arrays, slots, the ports of the transport, the
response, the two ways an operation fails (spec `60_exceptions.md` rules R141, R142), reset (R163), and the moves of the
environment (R52). -/

namespace Sys2Proof.Machine

/-- What one operation or one step answers. -/
abbrev Result := Host.Outcome State Fault Refusal

/-- `MemRead(space, a, k)`: the `k` bytes from index `a`, lowest first (R9). -/
def memRead {n : Nat} (v : Vector Byte n) (a k : Nat) : List Byte := (v.toList.drop a).take k

/-- `MemWrite(space, a, k, bytes)`: the bytes at indices `a` on, lowest first (R9). -/
def memWrite {n : Nat} (v : Vector Byte n) (a : Nat) : List Byte → Vector Byte n
  | [] => v
  | b :: bs => memWrite (v.setIfInBounds a b) (a + 1) bs

/-- One byte of an array (R9). Every caller has checked the index. -/
def memByte {n : Nat} (v : Vector Byte n) (k : Nat) : Byte := v[k]?.getD 0

/-- `MSG[m]`, absent for `m >= N_MSG` (R9, R73). -/
def State.slot (s : State) (m : Nat) : Option Slot := s.slots[m]?

/-- `MSG[m] <- sl` (R9). -/
def State.setSlot (s : State) (m : Nat) (sl : Slot) : State := { s with slots := s.slots.set m sl }

/-- `TxWrite(b)` (R9, R47). It always succeeds (decision D26, log 14). -/
def State.txWrite (s : State) (b : Byte) : State := { s with txq := s.txq ++ [b] }

/-- The end of an operation: its response is given to the caller (R71). -/
def State.respond (s : State) (st : Status) (result : Option Byte) : State :=
  { s with responses := s.responses ++ [{ status := st, result := result }] }

/-- An operation that succeeds without a result. -/
def State.ok (s : State) : State := s.respond .ok none

/-- `raise InvalidConfig` (R9, R141): the response is the whole effect. -/
def State.reject (s : State) : State := s.respond .invalidConfig none

/-- The end of a receive (R131 `finish(F)`, R142): `XCV.FAULT <- F`, `RX.STATE <- Idle`, the response `OK` or `FAIL`.
With `F` a runtime fault this is `raise F`, the block's exception entry (R150): nothing is saved, no handler is
entered, nothing is undone. -/
def State.finish (s : State) (f : FaultReason) : State :=
  { s with fault := f, rx := { s.rx with state := .idle } }.respond (statusOf f) none

/-- The reset event (R160 to R163): the block's own state to its reset values, an operation in flight cut off with no
response, `RXQ`, `TXQ` and `CLK` untouched. The number of slots is the hardware's. -/
def State.blockReset (s : State) : State :=
  { s with
    slots := List.replicate s.slots.length Slot.reset
    init := false
    fault := .none
    scratch := Vector.replicate Config.scratchSize 0
    rx := Rx.reset }

/-- The far end appends a byte (R28, R52). -/
def State.arrive (s : State) (b : Byte) : State := { s with rxq := s.rxq ++ [b] }

/-- The clock advances (R28, R154). -/
def State.advance (s : State) (ms : Word32) : State := { s with clk := s.clk + ms }

end Sys2Proof.Machine
end

