-- ==== Sys2Proof/Machine/Control.lean ====
section
/-! DEFINITION. The Transceiver control operations (spec `42_control.md`): `XCV.BEGIN`, `XCV.GETFAULT`. -/

namespace Sys2Proof.Machine

/-- `XCV.BEGIN cfg` (R100, R101): the token goes to the transport's own `begin`, and the Transceiver is ready. The streams
stay as they are (decision D21, log 11). -/
def execXcvBegin (cfg : TransportConfig) (s : State) : Result :=
  .next { s with begun := s.begun ++ [cfg], init := true }.ok

/-- `XCV.GETFAULT` (R102): the code of `XCV.FAULT`, zero-extended to a byte; the read changes nothing. -/
def execXcvGetfault (s : State) : Result :=
  .next (s.respond .ok (some ((faultCode s.fault).setWidth 8)))

end Sys2Proof.Machine
end

