-- ==== Sys2Proof/WellFormed.lean ====
section
/-! DEFINITION. Well-formed operations: the operand ranges of spec `30_encoding.md` rule R72. An ill-formed operation is
still executed: R73 gives it the response `INVALID_CONFIG`. -/

namespace Sys2Proof

/-- `0 <= m < N_MSG` (R72). -/
def slotInRange (nMsg m : Nat) : Bool := decide (m < nMsg)

/-- "`w` in `PACK_WIDTHS`" (R72, R93). -/
def widthLegal (w : Nat) : Bool := Config.packWidths.contains w

/-- "each a pattern of `8*w` bits" (R72, R93). -/
def elemFits (w : Nat) (v : Elem) : Bool := decide (v.toNat < 2 ^ (8 * w))

/-- Every operand is in the range its row of R72 gives it, on a block of `nMsg` slots. The `len` of `MSG.INIT` is any
byte: a value above 8 is an operand the operation itself rejects (R91). -/
def Instr.wellFormed (nMsg : Nat) : Instr → Bool
  | .crc8Compute _ => true
  | .msgInit m _ _ _ => slotInRange nMsg m
  | .msgPackv m w vals => slotInRange nMsg m && widthLegal w && vals.all (elemFits w)
  | .msgPackt m _ => slotInRange nMsg m
  | .xcvBegin _ => true
  | .xcvSend m _ => slotInRange nMsg m
  | .xcvRecv m _ => slotInRange nMsg m
  | .xcvGetfault => true

end Sys2Proof
end

