-- ==== Sys2Proof/Machine/Message.lean ====
section
/-! DEFINITION. The message slot operations (spec `41_message.md`): `MSG.INIT`, `MSG.PACKV`, `MSG.PACKT`. -/

namespace Sys2Proof.Machine

/-- A freshly constructed slot (R90; `TS`, `CTR`, `CRC` by decision D12). -/
def constructSlot (id : Word32) (len : Byte) (mode : CrcMode) : Slot :=
  { id := id, len := len, crcMode := mode, ts := 0, payload := Vector.replicate Config.payloadSize 0, ctr := 0, crc := 0 }

/-- `MSG.INIT m, id, len, mode` (R90, R91). -/
def execMsgInit (m : Nat) (id : Word32) (len : Byte) (mode : CrcMode) (s : State) : Result :=
  match s.slot m with
  | none => .next s.reject
  | some _ => if 8 < len then .next s.reject else .next (s.setSlot m (constructSlot id len mode)).ok

/-- What both pack operations do (R92, R95): the capacity check, on the exact number of bytes, then the bytes from payload
offset 0. -/
def packBytes (m : Nat) (bytes : List Byte) (s : State) : Result :=
  match s.slot m with
  | none => .next s.reject
  | some sl =>
    if packCapacity sl.crcMode < bytes.length then .next s.reject
    else .next (s.setSlot m { sl with payload := memWrite sl.payload 0 bytes }).ok

/-- `MSG.PACKV m, w, vals` (R93): `w` outside `PACK_WIDTHS` is rejected (R73). -/
def execMsgPackv (m w : Nat) (vals : List Elem) (s : State) : Result :=
  if widthLegal w then packBytes m (elementBytes w vals) s else .next s.reject

/-- `MSG.PACKT m, text` (R94). -/
def execMsgPackt (m : Nat) (text : List Byte) (s : State) : Result := packBytes m text s

end Sys2Proof.Machine
end

