-- ==== Sys2Proof/Machine/Crc.lean ====
section
/-! DEFINITION. The CRC8 Engine (spec `40_crc8.md`): `CRC8.COMPUTE`. -/

namespace Sys2Proof.Machine

/-- One byte through the engine: `rem <- T[rem XOR b]` (R80). -/
def crc8Step (table : Byte → Byte) (rem b : Byte) : Byte := table (rem ^^^ b)

/-- `CRC8(bytes)` (R80): remainder 0, then every byte in increasing order. -/
def crc8 (table : Byte → Byte) (bytes : List Byte) : Byte := bytes.foldl (crc8Step table) 0

/-- `CRC8.COMPUTE bytes` (R81): `respond OK = CRC8(bytes)`. -/
def execCrc8Compute (bytes : List Byte) (s : State) : Result :=
  .next (s.respond .ok (some (crc8 Config.params.table bytes)))

end Sys2Proof.Machine
end

