-- ==== Sys2Proof/Machine/Receive.lean ====
section
/-! DEFINITION. The receive parser (spec `44_receive.md`): `XCV.RECV`, as the blocking procedure of R115, and the state
machine of R131, which carries a receive that is still waiting when an operation's step ends. -/

namespace Sys2Proof.Machine

/-- The use of window byte `i` (R66, R120 to R124): the slot after it, and whether it is the end delimiter. No answer for a
payload index outside 0 to 7, which only a `LEN` above 8 forms (R41). -/
def windowByte (i : Nat) (b : Byte) (sl : Slot) : Option (Slot × Bool) :=
  if i < 4 then some ({ sl with ts := fold sl.ts b }, false)
  else if i = 4 then some ({ sl with len := clampLen b }, false)
  else if i < 9 then some ({ sl with id := fold sl.id b }, false)
  else if i < 9 + sl.len.toNat then
    if i - 9 < Config.payloadSize then some ({ sl with payload := memWrite sl.payload (i - 9) [b] }, false) else none
  else some (sl, decide (b = Config.endDelim))

/-- Steps 6 and 7 (R126 to R130), once the end delimiter has been found for slot `m`. -/
def verifyFrame (p : Config.Params) (m : Nat) (s : State) : Result :=
  match s.slot m with
  | none => .fault .receiveSlot
  | some sl =>
    match sl.crcMode with
    | .none => .next (s.finish .none)
    | .crc8 =>
      let l := sl.len.toNat
      if l < 2 then .next (s.finish .crcMismatch)
      else if 8 < l then .fault .payloadIndex
      else
        let c := crc8 p.table (memRead sl.payload 0 (coveredBytes p l))
        let stored := s.setSlot m { sl with ctr := memByte sl.payload (l - 2), crc := c }
        if c = memByte sl.payload (l - 1) then .next (stored.finish .none) else .next (stored.finish .crcMismatch)

/-- How the wait for a window byte ends. -/
inductive WaitEnd where
  /-- A byte was available and has been read (R118). -/
  | byte (b : Byte) (s : State)
  /-- The budget is spent and no byte is available (R119). -/
  | expired (s : State)
  /-- The reset cut the operation off (R163). -/
  | cutOff (s : State)
  /-- The schedule holds no further move and the parser still waits (R155). -/
  | waiting (s : State)

/-- One poll (R118): availability first, then the budget. `RxRead()` is in the same step as the `RxAvail()` that guards it
(R47). -/
def poll (s : State) : WaitEnd :=
  match s.rxq with
  | b :: q => .byte b { s with rxq := q }
  | [] => if budgetSpent s then .expired s else .waiting s

/-- The wait of one window byte (R118, R119) along the schedule `e`: the environment's moves happen, and at each turn of the
block it polls. With nothing scheduled the block polls. -/
def awaitByte : List Move → State → WaitEnd
  | [], s => poll { s with env := [] }
  | .arrive b :: e, s => awaitByte e (s.arrive b)
  | .advance ms :: e, s => awaitByte e (s.advance ms)
  | .reset :: e, s => .cutOff { s with env := e }.blockReset
  | .block :: e, s =>
    match poll { s with env := e } with
    | .waiting _ => awaitByte e s
    | done => done

/-- Step 4 (R115): `n` window bytes are still to come, the next has index `18 - n`. -/
def receiveWindow (p : Config.Params) (m : Nat) : Nat → State → Result
  | 0, s => .next (s.finish .missingEndDelimiter)
  | n + 1, s =>
    let i := Config.windowSize - (n + 1)
    let start := { s with rx := { s.rx with i := BitVec.ofNat 5 i, t0 := s.clk } }
    match awaitByte start.env start with
    | .waiting s' => .next s'
    | .cutOff s' => .next s'
    | .expired s' => .next (s'.finish .timeout)
    | .byte b s' =>
      match s'.slot m with
      | none => .fault .receiveSlot
      | some sl =>
        match windowByte i b sl with
        | none => .fault .payloadIndex
        | some (sl', false) => receiveWindow p m n (s'.setSlot m sl')
        | some (sl', true) =>
          verifyFrame p m { s'.setSlot m sl' with rx := { s'.rx with found := true } }

/-- The parser has accepted a receive (R131, second row). -/
def State.acceptReceive (s : State) (m : Nat) (timeoutMs : Word32) : State :=
  { s with rx := { s.rx with state := .awaitStart, m := m, tmo := timeoutMs } }

/-- The start delimiter has been read (R117; R131, fifth row). -/
def State.enterWindow (s : State) : State :=
  { s with rx := { s.rx with state := .readFixedWindow, i := 0, found := false, t0 := s.clk } }

/-- `XCV.RECV` under parameters `p`, the procedure of R115. When the schedule ends while the parser waits, the receive
stays in flight. -/
def receiveFrame (p : Config.Params) (m : Nat) (timeoutMs : Word32) (s : State) : Result :=
  if m < s.slots.length ∧ s.init = true then
    let s1 := s.acceptReceive m timeoutMs
    match s1.rxq with
    | [] => .next (s1.finish .noIncomingData)
    | b :: q =>
      let s2 := { s1 with rxq := q }
      if b = Config.startDelim then receiveWindow p m Config.windowSize s2.enterWindow
      else .next (s2.finish .noIncomingData)
  else .next s.reject

/-- `XCV.RECV m, timeoutMs` (R115). -/
def execXcvRecv (m : Nat) (timeoutMs : Word32) (s : State) : Result := receiveFrame Config.params m timeoutMs s

/-- The row of `AwaitStart` (R116, R117, R131). -/
def awaitStartRow (s : State) : Result :=
  match s.rxq with
  | [] => .next (s.finish .noIncomingData)
  | b :: q =>
    if b = Config.startDelim then .next { s with rxq := q }.enterWindow
    else .next ({ s with rxq := q }.finish .noIncomingData)

/-- The rows of `ReadFixedWindow` (R131): a byte is handled at index `RX.I`; or the budget is spent; or the parser waits. -/
def windowRow (p : Config.Params) (s : State) : Result :=
  match s.rxq with
  | [] => if budgetSpent s then .next (s.finish .timeout) else .next s
  | b :: q =>
    if 17 < s.rx.i then .fault .windowIndex
    else
      match s.slot s.rx.m with
      | none => .fault .receiveSlot
      | some sl =>
        match windowByte s.rx.i.toNat b sl with
        | none => .fault .payloadIndex
        | some (sl', found) =>
          let s' := { s with rxq := q }.setSlot s.rx.m sl'
          if found then verifyFrame p s.rx.m { s' with rx := { s'.rx with found := true } }
          else if s.rx.i = 17 then .next (s'.finish .missingEndDelimiter)
          else .next { s' with rx := { s'.rx with i := s.rx.i + 1, t0 := s.clk } }

/-- One step of the parser (R131). In `Idle` there is none. -/
def parserRow (p : Config.Params) (s : State) : Result :=
  match s.rx.state with
  | .idle => .next s
  | .awaitStart => awaitStartRow s
  | .readFixedWindow => windowRow p s

end Sys2Proof.Machine
end

