-- ==== Sys2Proof/Machine/Send.lean ====
section
/-! DEFINITION. Frame serialization (spec `43_send.md`): `XCV.SEND`. -/

namespace Sys2Proof.Machine

/-- The `CRC8`-mode insertion (R107): the counter into `PAYLOAD[L-2]`, then the checksum into `PAYLOAD[L-1]`. In `None`
mode the payload goes out as packed. -/
def sendPayload (p : Config.Params) (sl : Slot) : Vector Byte Config.payloadSize :=
  let l := sl.len.toNat
  match sl.crcMode with
  | .none => sl.payload
  | .crc8 =>
    let withCounter := memWrite sl.payload (l - 2) [sl.ctr]
    memWrite withCounter (l - 1) [crc8 p.table (memRead withCounter 0 (coveredBytes p l))]

/-- Step 2 (R105, R106): the frame of R60 written into `SCRATCH[0 .. 11+L)`, from the payload after the insertion. -/
def serialize (scratch : Vector Byte Config.scratchSize) (sl : Slot) (payload : Vector Byte Config.payloadSize)
    (ts : Word32) : Vector Byte Config.scratchSize :=
  let l := sl.len.toNat
  let s1 := memWrite scratch 0 [Config.startDelim]
  let s2 := memWrite s1 1 (leBytes 4 ts)
  let s3 := memWrite s2 5 [sl.len]
  let s4 := memWrite s3 6 (leBytes 4 sl.id)
  let s5 := memWrite s4 10 (memRead payload 0 l)
  memWrite s5 (10 + l) [Config.endDelim]

/-- How the transmission of a frame ends. -/
inductive SendEnd where
  /-- Every byte has been written. -/
  | sent (s : State)
  /-- The reset cut the operation off (R163). -/
  | cutOff (s : State)

/-- Step 3 (R109) along the schedule `e`: each turn of the block is one `TxWrite` of the next byte, in order, and between any
two of them the environment may move (R48) or the platform reset the block (R163); a last turn ends the operation. With
nothing scheduled the block writes on to the end. Log 2. -/
def transmit : List Move → List Byte → State → SendEnd
  | [], bytes, s => .sent (bytes.foldl State.txWrite { s with env := [] })
  | .arrive b :: e, bytes, s => transmit e bytes (s.arrive b)
  | .advance ms :: e, bytes, s => transmit e bytes (s.advance ms)
  | .reset :: e, _, s => .cutOff { s with env := e }.blockReset
  | .block :: e, [], s => .sent { s with env := e }
  | .block :: e, b :: bytes, s => transmit e bytes (s.txWrite b)

/-- `XCV.SEND` under parameters `p` (R105): precondition (R108, R111), serialize, transmit, counter (R110). A `LEN` above 8
is in no reachable state (R12, R41); the model stops there by name. -/
def sendFrame (p : Config.Params) (m : Nat) (ts : Word32) (s : State) : Result :=
  match s.slot m with
  | none => .next s.reject
  | some sl =>
    if s.init = false then .next s.reject
    else if sl.crcMode = .crc8 ∧ sl.len < 2 then .next s.reject
    else if 8 < sl.len then .fault .payloadIndex
    else
      let payload := sendPayload p sl
      let scratch := serialize s.scratch sl payload ts
      let prepared := { s.setSlot m { sl with payload := payload } with scratch := scratch }
      match transmit prepared.env (memRead scratch 0 (11 + sl.len.toNat)) prepared with
      | .sent t => .next (t.setSlot m { sl with payload := payload, ctr := sl.ctr + 1 }).ok
      | .cutOff t => .next t

/-- `XCV.SEND m, ts` (R105). -/
def execXcvSend (m : Nat) (ts : Word32) (s : State) : Result := sendFrame Config.params m ts s

end Sys2Proof.Machine
end

