-- ==== Sys2Proof/Machine/Dispatch.lean ====
section
/-! DEFINITION. One operation: a direct call of its meaning. -/

namespace Sys2Proof.Machine

/-- The meaning of each of the eight operations (spec `30_encoding.md` rule R72). -/
def exec (i : Instr) (s : State) : Host.Outcome State Fault Refusal :=
  match i with
  | .crc8Compute bytes => Sys2Proof.Machine.execCrc8Compute bytes s
  | .msgInit m id len mode => Sys2Proof.Machine.execMsgInit m id len mode s
  | .msgPackv m w vals => Sys2Proof.Machine.execMsgPackv m w vals s
  | .msgPackt m text => Sys2Proof.Machine.execMsgPackt m text s
  | .xcvBegin cfg => Sys2Proof.Machine.execXcvBegin cfg s
  | .xcvSend m ts => Sys2Proof.Machine.execXcvSend m ts s
  | .xcvRecv m timeoutMs => Sys2Proof.Machine.execXcvRecv m timeoutMs s
  | .xcvGetfault => Sys2Proof.Machine.execXcvGetfault s

end Sys2Proof.Machine
end

