-- ==== Sys2Proof/Decode.lean ====
section
/-! DEFINITION. From a command at the port to an operation and back (spec `30_encoding.md` rules R71 to R73). The code
`OP` is the only encoded part of a command. -/

namespace Sys2Proof

/-- Why the decoder rejects a command, by name. -/
inductive DecodeError where
  /-- "`OP` values `0x08` to `0xFF` name no operation" (R73). -/
  | reservedOp (op : Byte)
deriving DecidableEq, Repr

/-- The decoder: the code column of R72; every other code is reserved (R73). Total on every command. -/
def decode (c : Command) : Except DecodeError Instr :=
  match c.op.toNat with
  | 0x00 => .ok (.crc8Compute c.bytes)
  | 0x01 => .ok (.msgInit c.m c.id c.len c.mode)
  | 0x02 => .ok (.msgPackv c.m c.w c.vals)
  | 0x03 => .ok (.msgPackt c.m c.text)
  | 0x04 => .ok (.xcvBegin c.cfg)
  | 0x05 => .ok (.xcvSend c.m c.ts)
  | 0x06 => .ok (.xcvRecv c.m c.timeoutMs)
  | 0x07 => .ok .xcvGetfault
  | _ => .error (.reservedOp c.op)

/-- The encoder, from the same table (R72): the code, and each operand on its own wire. -/
def encode : Instr → Command
  | .crc8Compute bytes => { op := 0x00, bytes := bytes }
  | .msgInit m id len mode => { op := 0x01, m := m, id := id, len := len, mode := mode }
  | .msgPackv m w vals => { op := 0x02, m := m, w := w, vals := vals }
  | .msgPackt m text => { op := 0x03, m := m, text := text }
  | .xcvBegin cfg => { op := 0x04, cfg := cfg }
  | .xcvSend m ts => { op := 0x05, m := m, ts := ts }
  | .xcvRecv m timeoutMs => { op := 0x06, m := m, timeoutMs := timeoutMs }
  | .xcvGetfault => { op := 0x07 }

/-- The command of a table row: its word is the code, and the operands, to which the table gives no bits, are the zero of
their type: 0, `None`, the empty sequence. DESIGN CHOICE, log 1. -/
def tableCommand (w : Nat) : Command := { op := BitVec.ofNat 8 w }

/-- The operation the decoder reads from a table row's bits: the table gives every row the 8 bits of its code. -/
def decodeTableWord (_nbits w : Nat) : Option Instr :=
  match decode (tableCommand w) with
  | .ok i => some i
  | .error _ => none

end Sys2Proof
end

