-- ==== Sys2Proof/Machine/Fetch.lean ====
section
/-! DEFINITION. The command port and the schedule: which agent moves next, and which command the block accepts
(spec `20_memory.md` rules R50, R52; `30_encoding.md` rule R71). -/

namespace Sys2Proof.Machine

/-- Who moves next. -/
inductive Turn where
  /-- An agent outside the block has moved. -/
  | outside (s : State)
  /-- The block moves, from this state. -/
  | block (s : State)

/-- The head of the schedule (R52): a move outside the block happens; otherwise the block moves. -/
def State.turn (s : State) : Turn :=
  match s.env with
  | [] => .block s
  | .block :: e => .block { s with env := e }
  | .arrive b :: e => .outside ({ s with env := e }.arrive b)
  | .advance ms :: e => .outside ({ s with env := e }.advance ms)
  | .reset :: e => .outside { s with env := e }.blockReset

/-- The command the block accepts: the caller's oldest, if the port is ready, that is if no receive is in flight (R50,
R71, R170). -/
def State.fetch (s : State) : Option (Command × State) :=
  match s.rx.state, s.port with
  | .idle, c :: cs => some (c, { s with port := cs })
  | _, _ => none

/-- The state in which `step` accepts command `c` next and runs it: the port holds it first and is ready, and it is the
block's turn. -/
def State.withCommand (s : State) (c : Command) : State :=
  { s with rx := { s.rx with state := .idle }, port := c :: s.port, env := .block :: s.env }

end Sys2Proof.Machine
end

