-- ==== Sys2Proof/Machine/Step.lean ====
section
/-! DEFINITION. One step of the machine: one move of one agent. A move of the block with the parser idle is one whole
operation (spec `20_memory.md` rules R48, R50), and a send or a receive takes the moves made meanwhile off the schedule; with
a receive in flight it is one row of R131. -/

namespace Sys2Proof.Machine

/-- The block accepts command `c`. A reserved code is rejected and changes nothing (R73). -/
def runCommand (c : Command) (s : State) : Host.Outcome State Fault Refusal :=
  match decode c with
  | .ok i => exec i s
  | .error _ => .next s.reject

/-- The block's move: an operation, or a row of the parser; with an idle parser and nothing at the port it waits for the
caller (R160). -/
def blockMove (s : State) : Host.Outcome State Fault Refusal :=
  match s.fetch with
  | some (c, s') => runCommand c s'
  | none => parserRow Config.params s

/-- One step. -/
def step (s : State) : Host.Outcome State Fault Refusal :=
  match s.turn with
  | .outside s' => .next s'
  | .block s' => blockMove s'

/-- `s` with a table row's word at the command port, so that the next step accepts and runs exactly it. The table gives a
row the bits of its code only; the operands are the zeros of `tableCommand`. -/
def State.withFetchWord (s : State) (_nbits w : Nat) : State := s.withCommand (tableCommand w)

end Sys2Proof.Machine
end

