-- ==== Sys2Proof/Safety.lean ====
section
/-! DEFINITION. What a safe run is: the machine never stops; the invariant of every reachable state that keeps it from
stopping (spec `20_memory.md` rule R41, `60_exceptions.md` rules R141, R142); and the words the statements use for the wire
and for what the environment did meanwhile. -/

namespace Sys2Proof.Machine

/-- The machine goes on from `s`: its step is neither a fault nor a refusal. -/
def State.Goes (s : State) : Prop := ∃ t, step s = .next t

/-- The invariant of the reachable states. -/
structure State.Inv (s : State) : Prop where
  /-- There is at least one slot (R6). -/
  slots_exist : 0 < s.slots.length
  /-- `LEN <= 8` in every slot (R12). -/
  len_le : ∀ sl ∈ s.slots, sl.len ≤ 8
  /-- A receive in flight names a slot (R131). -/
  rx_slot : s.rx.state ≠ .idle → s.rx.m < s.slots.length
  /-- A receive is in flight only on an initialized Transceiver (R116). -/
  rx_init : s.rx.state ≠ .idle → s.init = true
  /-- `RX.I` "never exceeds 17 while a byte is awaited" (R25). -/
  rx_index : s.rx.state = .readFixedWindow → s.rx.i ≤ 17
  /-- While a byte is awaited no delimiter has been found (R27, R131). -/
  rx_found : s.rx.state = .readFixedWindow → s.rx.found = false

/-- The four wire bytes of a 32-bit value, least significant first (R43, R60), bit range by bit range. -/
def wireWord (v : Word32) : List Byte :=
  [v.extractLsb' 0 8, v.extractLsb' 8 8, v.extractLsb' 16 8, v.extractLsb' 24 8]

/-- Frame offsets 1 to 9 (R60): timestamp, length byte, identifier. -/
def wireHeader (ts : Word32) (len : Byte) (id : Word32) : List Byte := wireWord ts ++ len :: wireWord id

/-- The bytes that arrive during moves of the schedule. -/
def arrivals : List Move → List Byte
  | [] => []
  | .arrive b :: e => b :: arrivals e
  | .advance _ :: e => arrivals e
  | .reset :: e => arrivals e
  | .block :: e => arrivals e

/-- The milliseconds that pass during moves of the schedule. -/
def elapsed : List Move → Word32
  | [] => 0
  | .arrive _ :: e => elapsed e
  | .advance ms :: e => ms + elapsed e
  | .reset :: e => elapsed e
  | .block :: e => elapsed e

/-- From `s` to `t` some moves of the schedule have run: what was to stay of `RXQ` is `left`, what arrived stands behind it,
and the clock is later by what has passed. -/
def State.EnvRan (s t : State) (left : List Byte) : Prop :=
  ∃ ran, s.env = ran ++ t.env ∧ t.rxq = left ++ arrivals ran ∧ t.clk = s.clk + elapsed ran

/-- The block's turns among moves of the schedule. -/
abbrev turns (e : List Move) : Nat := e.count Move.block

/-- No reset lands before the block has had `n` turns (R163). With `n` the turns an operation takes, it runs to its end. -/
abbrev Uncut (n : Nat) (e : List Move) : Prop := Move.reset ∈ e → n ≤ turns (e.takeWhile (· ≠ .reset))

/-- `P` is the payload `old` with `bytes` written from offset 0 (R15, R95, R123). -/
def PayloadFrom (old : Vector Byte Config.payloadSize) (bytes : List Byte) (P : Vector Byte Config.payloadSize) : Prop :=
  ∀ k (h : k < Config.payloadSize), P[k] = (bytes[k]?).getD old[k]

/-- `T_ZERO` (R84). The spec asserts none of the three properties of its table; a statement names the one it assumes. -/
def TableZero (T : Byte → Byte) : Prop := T 0 = 0

/-- `T_LINEAR` (R84). -/
def TableLinear (T : Byte → Byte) : Prop := ∀ a b, T (a ^^^ b) = T a ^^^ T b

/-- `T_BIJECTIVE` (R84): `T` is a permutation of the bytes. -/
def TableBijective (T : Byte → Byte) : Prop := (∀ a b, T a = T b → a = b) ∧ ∀ y, ∃ x, T x = y

/-- A pack operation on slot `m`, and the bytes it writes (R93, R94). -/
def Packs (m : Nat) (bytes : List Byte) (i : Instr) : Prop :=
  i = .msgPackt m bytes ∨ ∃ w vals, w ∈ Config.packWidths ∧ i = .msgPackv m w vals ∧ bytes = elementBytes w vals

end Sys2Proof.Machine
end

