-- ==== Sys2Proof/Certificates/Slice0/Obligations.lean ====
section
/-! DEFINITION. The statements for the provers. `Config.params.table` is the open CRC8 table: what is said of it holds for
every table. A statement whose docstring names a decision `D<n>` of `92_eei_decisions.md` rests on a choice the spec marks
as its own; one that names a log entry rests on the model's choice. -/

open Sys2Proof Sys2Proof.Machine

/-! ### Commands and steps -/

/-- R71, R72 (codes by D8, operand wires by log 1): the decoder reads every encoded operation back, whatever its operands;
what it accepts is one of the eight codes, and it rejects exactly the codes from `0x08` on. -/
def Obligations.DecodeEncodeAgree : Prop :=
  (∀ i, decode (encode i) = .ok i) ∧
  (∀ c i, decode c = .ok i → (encode i).op = c.op) ∧
  (∀ c, decode c = .error (.reservedOp c.op) ↔ 8 ≤ c.op)

/-- R72 (codes by D8): the eight codes, written out, with operands other than zero. -/
def Obligations.CodesDecodeToTheirOperations : Prop :=
  decode { op := 0b00000000, bytes := [1, 2, 3] } = .ok (.crc8Compute [1, 2, 3]) ∧
  decode { op := 0b00000001, m := 1, id := 0xFF, len := 6, mode := .crc8 } = .ok (.msgInit 1 0xFF 6 .crc8) ∧
  decode { op := 0b00000010, m := 1, w := 2, vals := [0x1234, 0xABCD] } = .ok (.msgPackv 1 2 [0x1234, 0xABCD]) ∧
  decode { op := 0b00000011, m := 1, text := [0x74] } = .ok (.msgPackt 1 [0x74]) ∧
  decode { op := 0b00000100, cfg := ⟨5⟩ } = .ok (.xcvBegin ⟨5⟩) ∧
  decode { op := 0b00000101, m := 1, ts := 7 } = .ok (.xcvSend 1 7) ∧
  decode { op := 0b00000110, m := 1, timeoutMs := 100 } = .ok (.xcvRecv 1 100) ∧
  decode { op := 0b00000111 } = .ok .xcvGetfault ∧
  decode { op := 0b00001000 } = .error (.reservedOp 0b00001000)

/-- R50, R71 (port and schedule by logs 1 and 2): with the port ready and the block's turn, a step accepts the caller's
oldest command and runs exactly the operation it decodes to, on the state in which that command has left the port and the
block's turn has been taken off the schedule. -/
def Obligations.StepRunsTheDecodedCommand : Prop :=
  ∀ (s : State) (c : Command) (cs : List Command) (i : Instr),
    s.rx.state = .idle → s.port = c :: cs → (s.env = [] ∨ ∃ e, s.env = .block :: e) → decode c = .ok i →
    step s = exec i { s with port := cs, env := s.env.tail }

/-- R73 (D8): a reserved code is answered with `INVALID_CONFIG` and changes nothing; the command has left the port. -/
def Obligations.ReservedCodeIsRejected : Prop :=
  ∀ (s : State) (c : Command) (cs : List Command),
    s.rx.state = .idle → s.port = c :: cs → (s.env = [] ∨ ∃ e, s.env = .block :: e) → 8 ≤ c.op →
    step s = .next { s with port := cs, env := s.env.tail, responses := s.responses ++ [⟨.invalidConfig, none⟩] }

/-- R28, R52 (schedule by log 2): a byte that arrives goes to the tail of `RXQ`, the clock advances modulo `2^32`, and
neither move touches anything else, a receive in flight included. -/
def Obligations.EnvironmentMovesTouchTheirStreamOnly : Prop :=
  (∀ (s : State) b e, s.env = .arrive b :: e → step s = .next { s with env := e, rxq := s.rxq ++ [b] }) ∧
  (∀ (s : State) ms e, s.env = .advance ms :: e → step s = .next { s with env := e, clk := s.clk + ms })

/-- R50, R170, R172 (D16): while a receive is in flight a step accepts no command, sends nothing, hands nothing to the
transport's `begin`, and changes no slot but the one the receive names; unless the platform resets the block. -/
def Obligations.BusyPortAcceptsNothing : Prop :=
  ∀ s t : State, s.rx.state ≠ .idle → s.env.head? ≠ some .reset → step s = .next t →
    t.port = s.port ∧ t.txq = s.txq ∧ t.begun = s.begun ∧ t.init = s.init ∧ t.scratch = s.scratch ∧
    (∀ j, j ≠ s.rx.m → t.slots[j]? = s.slots[j]?) ∧
    (t.rx.state ≠ .idle → t.responses = s.responses ∧ t.fault = s.fault)

/-! ### Reset -/

/-- R161 (grounds D11 to D13): what reset leaves, for every number of slots; `State.reset` has two (log 4). The values
this statement leaves out (`SCRATCH`, the parser's other registers, the streams, the clock) are the model's (logs 7, 8). -/
def Obligations.ResetLeavesTheSpecsValues : Prop :=
  State.reset = State.resetWith 2 ∧
  ∀ n, (State.resetWith n).slots.length = n ∧ (State.resetWith n).init = false ∧ (State.resetWith n).fault = .none ∧
    (State.resetWith n).rx.state = .idle ∧
    ∀ sl ∈ (State.resetWith n).slots, sl.id = 0 ∧ sl.len = 0 ∧ sl.crcMode = .none ∧ sl.ts = 0 ∧ sl.ctr = 0 ∧ sl.crc = 0 ∧
      ∀ k (h : k < Config.payloadSize), sl.payload[k] = 0

/-- R160 to R163 (D13; schedule by log 2): the reset event puts every slot and register to its reset value, cuts a receive
off with no response, and leaves `RXQ`, `TXQ` and `CLK` as they are. That the commands the caller has presented (`port`), the
responses already given and the tokens already handed over (`begun`) stay as well is the model's choice, log 9. -/
def Obligations.ResetEventLeavesTheEnvironmentAlone : Prop :=
  ∀ (s : State) e, s.env = .reset :: e → ∃ t, step s = .next t ∧
    t.slots.length = s.slots.length ∧ (∀ sl ∈ t.slots, sl = Slot.reset) ∧ t.init = false ∧ t.fault = .none ∧
    t.rx.state = .idle ∧ t.rxq = s.rxq ∧ t.txq = s.txq ∧ t.clk = s.clk ∧ t.begun = s.begun ∧ t.port = s.port ∧
    t.responses = s.responses ∧ t.env = e

/-! ### CRC8 Engine -/

/-- R80: the response is the table-driven remainder: one function of the bytes alone, 0 on no bytes, and one table lookup
of the remainder XOR the byte for each further byte, in increasing order; nothing else changes. -/
def Obligations.Crc8ComputeIsTheTableFold : Prop :=
  ∃ f : List Byte → Byte, f [] = 0 ∧ (∀ xs b, f (xs ++ [b]) = Config.params.table (f xs ^^^ b)) ∧
    ∀ (bytes : List Byte) (s : State),
      exec (.crc8Compute bytes) s = .next { s with responses := s.responses ++ [⟨.ok, some (f bytes)⟩] }

/-- R82, cases 1 to 3 and 5: for every table, with the composition law over two runs. -/
def Obligations.Crc8CasesHoldForEveryTable : Prop :=
  ∀ table : Byte → Byte,
    crc8 table [] = 0 ∧ (∀ b, crc8 table [b] = table b) ∧
    (∀ b0 b1, crc8 table [b0, b1] = table (table b0 ^^^ b1)) ∧
    (∀ xs ys, crc8 table (xs ++ ys) = ys.foldl (fun rem b => table (rem ^^^ b)) (crc8 table xs))

/-- R84 (from general knowledge, asserted of no table): what each named property of a table buys. `T_ZERO`: the checksum of
zero bytes is 0, and leading zero bytes do not change a checksum. `T_LINEAR`: the checksum of the XOR of two sequences of one
length is the XOR of their checksums. `T_BIJECTIVE`: changing the last byte alone changes the checksum. -/
def Obligations.NamedTablePropertiesBuyWhatTheSpecSays : Prop :=
  ∀ table : Byte → Byte,
    (TableZero table → (∀ n, crc8 table (List.replicate n 0) = 0) ∧
      ∀ n xs, crc8 table (List.replicate n 0 ++ xs) = crc8 table xs) ∧
    (TableLinear table → ∀ xs ys : List Byte, xs.length = ys.length →
      crc8 table (List.zipWith (· ^^^ ·) xs ys) = crc8 table xs ^^^ crc8 table ys) ∧
    (TableBijective table → ∀ xs a b, a ≠ b → crc8 table (xs ++ [a]) ≠ crc8 table (xs ++ [b]))

/-! ### Message slots -/

/-- R90 (`TS`, `CTR`, `CRC` by D12, re-issue by D25): construction sets every field of the slot and nothing else. -/
def Obligations.InitConstructsTheSlot : Prop :=
  ∀ (s : State) m id len mode, m < s.slots.length → len ≤ 8 →
    exec (.msgInit m id len mode) s =
      .next { s with
        slots := s.slots.set m
          { id := id, len := len, crcMode := mode, ts := 0, payload := #v[0, 0, 0, 0, 0, 0, 0, 0], ctr := 0, crc := 0 }
        responses := s.responses ++ [⟨.ok, none⟩] }

/-- R91: a length above 8 is rejected, whatever the other operands; the slot keeps every field. -/
def Obligations.InitRejectsLengthAboveEight : Prop :=
  ∀ (s : State) m id len mode, 8 < len →
    exec (.msgInit m id len mode) s = .next { s with responses := s.responses ++ [⟨.invalidConfig, none⟩] }

/-- R93 (widths by D18): element `e` occupies payload bytes `[e*w, e*w+w)`, least significant byte first; the bytes above
`n*w` keep their values, and nothing else changes. -/
def Obligations.PackvWritesElementsLittleEndian : Prop :=
  ∀ (s : State) m w (vals : List Elem) (sl : Slot), s.slots[m]? = some sl → w ∈ Config.packWidths →
    vals.length * w ≤ (if sl.crcMode = .crc8 then 6 else 8) →
    ∃ P, exec (.msgPackv m w vals) s =
        .next { s with slots := s.slots.set m { sl with payload := P }, responses := s.responses ++ [⟨.ok, none⟩] } ∧
      (∀ e i (v : Elem), vals[e]? = some v → i < w → P[e * w + i]? = some ((v >>> (8 * i)).setWidth 8)) ∧
      ∀ k (h : k < Config.payloadSize), vals.length * w ≤ k → P[k] = sl.payload[k]

/-- R94: the text's bytes, unmodified and without a terminator, at payload offset 0; rejected on capacity or on a slot that
does not exist; the same effect as `MSG.PACKV` with width 1; code `0x03`. -/
def Obligations.PacktWritesRawBytes : Prop :=
  ∀ (s : State) m (text : List Byte),
    (∀ sl, s.slots[m]? = some sl → text.length ≤ (if sl.crcMode = .crc8 then 6 else 8) →
      ∃ P, PayloadFrom sl.payload text P ∧
        exec (.msgPackt m text) s =
          .next { s with slots := s.slots.set m { sl with payload := P }, responses := s.responses ++ [⟨.ok, none⟩] }) ∧
    ((s.slots[m]? = none ∨ ∃ sl, s.slots[m]? = some sl ∧ (if sl.crcMode = .crc8 then 6 else 8) < text.length) →
      exec (.msgPackt m text) s = .next { s with responses := s.responses ++ [⟨.invalidConfig, none⟩] }) ∧
    exec (.msgPackt m text) s = exec (.msgPackv m 1 (text.map (·.setWidth 64))) s ∧
    (encode (.msgPackt m text)).op = 0x03

/-- R92: both pack operations fail on more than 6 bytes in `CRC8` mode and on more than 8 in any mode, and then write
nothing; otherwise they succeed, whatever `LEN` is. -/
def Obligations.PackCapacityIsSixOrEight : Prop :=
  ∀ (s : State) m sl i bytes, s.slots[m]? = some sl → Packs m bytes i →
    ((sl.crcMode = .crc8 ∧ 6 < bytes.length ∨ 8 < bytes.length) →
      exec i s = .next { s with responses := s.responses ++ [⟨.invalidConfig, none⟩] }) ∧
    (¬(sl.crcMode = .crc8 ∧ 6 < bytes.length ∨ 8 < bytes.length) →
      ∃ t, exec i s = .next t ∧ t.responses = s.responses ++ [⟨.ok, none⟩])

/-- R95: a second pack starts at offset 0 again. Two packs leave the second's bytes, then what stands out of the first's,
then the payload as it was before both. -/
def Obligations.PacksOverwriteFromOffsetZero : Prop :=
  ∀ (s : State) m sl i1 i2 b1 b2, s.slots[m]? = some sl → Packs m b1 i1 → Packs m b2 i2 →
    b1.length ≤ (if sl.crcMode = .crc8 then 6 else 8) → b2.length ≤ (if sl.crcMode = .crc8 then 6 else 8) →
    ∃ t u P, exec i1 s = .next t ∧ exec i2 t = .next u ∧ u.slots[m]? = some { sl with payload := P } ∧
      ∀ k (h : k < Config.payloadSize), P[k] = (b2[k]?).getD ((b1[k]?).getD sl.payload[k])

/-- R73 (D8): a width outside 1, 2, 4, 8, and a slot index at or above `N_MSG`, are answered with `INVALID_CONFIG` and
change nothing, in every operation that has such an operand. -/
def Obligations.BadOperandsAreRejected : Prop :=
  ∀ s : State,
    (∀ m w vals, w ∉ [1, 2, 4, 8] →
      exec (.msgPackv m w vals) s = .next { s with responses := s.responses ++ [⟨.invalidConfig, none⟩] }) ∧
    ∀ m, s.slots.length ≤ m → ∀ i,
      ((∃ id len mode, i = .msgInit m id len mode) ∨ (∃ w vals, i = .msgPackv m w vals) ∨ (∃ text, i = .msgPackt m text) ∨
        (∃ ts, i = .xcvSend m ts) ∨ ∃ tmo, i = .xcvRecv m tmo) →
      exec i s = .next { s with responses := s.responses ++ [⟨.invalidConfig, none⟩] }

/-! ### Transceiver control -/

/-- R100, R101 (D21; the record of tokens by log 11): `XCV.BEGIN` makes the Transceiver ready, also when it is ready
already; `FAULT`, slots, `SCRATCH`, the parser and the streams stay. -/
def Obligations.BeginMakesTheTransceiverReady : Prop :=
  ∀ (s : State) cfg, exec (.xcvBegin cfg) s =
    .next { s with init := true, begun := s.begun ++ [cfg], responses := s.responses ++ [⟨.ok, none⟩] }

/-- R21, R102 (codes by D5, no need of `INIT` by D22): the result is the code of `FAULT`, and the read changes nothing. -/
def Obligations.GetFaultReadsTheFaultRegister : Prop :=
  ∀ s : State, ∃ code : Byte, exec .xcvGetfault s = .next { s with responses := s.responses ++ [⟨.ok, some code⟩] } ∧
    (s.fault = .none → code = 0) ∧ (s.fault = .timeout → code = 1) ∧ (s.fault = .noIncomingData → code = 2) ∧
    (s.fault = .crcMismatch → code = 3) ∧ (s.fault = .missingEndDelimiter → code = 4)

/-! ### Send -/

/-- R60: what an accepted send that no reset cuts off (R163; its turns by log 2) writes to `TXQ` is the frame, byte by byte,
whatever the environment does meanwhile: start delimiter, timestamp, length and identifier
little-endian, the payload the slot holds afterwards, end delimiter; `11 + LEN` bytes. -/
def Obligations.SendWritesTheFrame : Prop :=
  ∀ (s : State) m (ts : Word32) (sl : Slot),
    s.init = true → s.slots[m]? = some sl → sl.len ≤ 8 → (sl.crcMode = .crc8 → 2 ≤ sl.len) →
    Uncut (12 + sl.len.toNat) s.env →
    ∃ t sl' f, exec (.xcvSend m ts) s = .next t ∧ t.slots[m]? = some sl' ∧ t.txq = s.txq ++ f ∧
      f.length = 11 + sl.len.toNat ∧ f[0]? = some 0xAA ∧
      (∀ i, i < 4 → f[1 + i]? = some ((ts >>> (8 * i)).setWidth 8)) ∧
      f[5]? = some sl.len ∧
      (∀ i, i < 4 → f[6 + i]? = some ((sl.id >>> (8 * i)).setWidth 8)) ∧
      (∀ k, k < sl.len.toNat → f[10 + k]? = sl'.payload[k]?) ∧
      f[10 + sl.len.toNat]? = some 0xBB

/-- R48, R105, R107 (covered range by D2, what is left alone by D19, the turns it takes by log 2): what an accepted send that
no reset cuts off changes, whatever the environment does meanwhile. In `None` mode the payload
stays; in `CRC8` mode `PAYLOAD[L-2]` is the counter before the increment and `PAYLOAD[L-1]` the checksum of the `L-2` data
bytes. `SCRATCH` holds the frame, its bytes beyond the frame stay (R23: unobservable). `RXQ` gains what arrived, the clock what
passed. Nothing else changes. -/
def Obligations.SendChangesCounterAndReservedBytesOnly : Prop :=
  ∀ (s : State) m (ts : Word32) (sl : Slot),
    s.init = true → s.slots[m]? = some sl → sl.len ≤ 8 → (sl.crcMode = .crc8 → 2 ≤ sl.len) →
    Uncut (12 + sl.len.toNat) s.env →
    ∃ t f S P, exec (.xcvSend m ts) s = .next t ∧
      t = { s with
        slots := s.slots.set m { sl with payload := P, ctr := sl.ctr + 1 }
        scratch := S
        rxq := t.rxq
        txq := s.txq ++ f
        clk := t.clk
        env := t.env
        responses := s.responses ++ [⟨.ok, none⟩] } ∧
      s.EnvRan t s.rxq ∧
      (sl.crcMode = .none → P = sl.payload) ∧
      (sl.crcMode = .crc8 →
        P[sl.len.toNat - 2]? = some sl.ctr ∧
        P[sl.len.toNat - 1]? = some (crc8 Config.params.table (sl.payload.toList.take (sl.len.toNat - 2))) ∧
        ∀ k, k ≠ sl.len.toNat - 2 → k ≠ sl.len.toNat - 1 → P[k]? = sl.payload[k]?) ∧
      (∀ j, j < f.length → S[j]? = f[j]?) ∧ (∀ j, f.length ≤ j → S[j]? = s.scratch[j]?)

/-- R110: an accepted send that no reset cuts off (R163; its turns by log 2) increments the slot's counter by 1, modulo 256,
in both modes, after the frame has been written, so that a `CRC8`-mode frame carries the value before the increment; other
slots' counters stay. A rejected send increments nothing. -/
def Obligations.SendIncrementsTheCounter : Prop :=
  ∀ (s : State) m (ts : Word32) (sl : Slot), s.slots[m]? = some sl → sl.len ≤ 8 →
    ((s.init = true ∧ (sl.crcMode = .crc8 → 2 ≤ sl.len)) → Uncut (12 + sl.len.toNat) s.env →
      ∃ t sl' f, exec (.xcvSend m ts) s = .next t ∧ t.slots[m]? = some sl' ∧
        sl'.ctr.toNat = (sl.ctr.toNat + 1) % 256 ∧ (∀ j, j ≠ m → t.slots[j]? = s.slots[j]?) ∧
        t.txq = s.txq ++ f ∧ (sl.crcMode = .crc8 → f[8 + sl.len.toNat]? = some sl.ctr)) ∧
    (¬(s.init = true ∧ (sl.crcMode = .crc8 → 2 ≤ sl.len)) →
      ∃ t, exec (.xcvSend m ts) s = .next t ∧ t.slots = s.slots)

/-- R108, R111 (D3, D10): a send before `XCV.BEGIN`, and a `CRC8`-mode send of a slot with `LEN < 2`, are rejected with no
effect: nothing is transmitted. -/
def Obligations.SendIsRejectedWithoutEffect : Prop :=
  ∀ (s : State) m (ts : Word32) (sl : Slot), s.slots[m]? = some sl → (s.init = false ∨ sl.crcMode = .crc8 ∧ sl.len < 2) →
    exec (.xcvSend m ts) s = .next { s with responses := s.responses ++ [⟨.invalidConfig, none⟩] }

/-- R112 case 3: a `CRC8`-mode send of a slot with `LEN = 2` carries the counter and a zero checksum, for every table; unless
a reset cuts it off (its turns by log 2). -/
def Obligations.SendOfEmptyDataIsTableIndependent : Prop :=
  ∀ (s : State) m (ts : Word32) (sl : Slot), s.init = true → s.slots[m]? = some sl → sl.crcMode = .crc8 → sl.len = 2 →
    Uncut 14 s.env →
    ∃ t, exec (.xcvSend m ts) s = .next t ∧
      t.txq = s.txq ++ 0xAA :: (wireHeader ts 2 sl.id ++ [sl.ctr, 0x00, 0xBB])

/-- R48, R109 (the turns are the model's, log 2): a frame is `11 + LEN` separate byte writes, between any two of which the
environment may act. An accepted send takes a turn of the block for each byte and one for its end, and the state it ends in
holds exactly what arrived and what passed up to that turn; where the schedule ends before, the send runs to its end after
all that is scheduled. -/
def Obligations.SendTakesATurnForEachByte : Prop :=
  ∀ (s : State) m (ts : Word32) (sl : Slot),
    s.init = true → s.slots[m]? = some sl → sl.len ≤ 8 → (sl.crcMode = .crc8 → 2 ≤ sl.len) →
    (∀ ran rem, s.env = ran ++ .block :: rem → Move.reset ∉ ran → turns ran = 11 + sl.len.toNat →
      ∃ t, exec (.xcvSend m ts) s = .next t ∧ t.rxq = s.rxq ++ arrivals ran ∧ t.clk = s.clk + elapsed ran ∧ t.env = rem ∧
        t.responses = s.responses ++ [⟨.ok, none⟩]) ∧
    (Move.reset ∉ s.env → turns s.env ≤ 11 + sl.len.toNat →
      ∃ t, exec (.xcvSend m ts) s = .next t ∧ t.rxq = s.rxq ++ arrivals s.env ∧ t.clk = s.clk + elapsed s.env ∧
        t.env = [] ∧ t.responses = s.responses ++ [⟨.ok, none⟩])

/-- R163, R161, R48 (D13; turns by log 2): a reset that lands in an accepted send, before its first byte, between two bytes or
after its last, cuts it off with no response: of the frame `f`, which the same send writes when nothing is scheduled, the
bytes written so far stay sent, so that without the last of them the end delimiter is missing; the block's state is that of
reset, `RXQ` and the clock keep what the environment did before. What stays of `port`, `begun` and the earlier responses is
the model's choice, log 9. -/
def Obligations.ResetCutsTheSendShort : Prop :=
  ∀ (s : State) m (ts : Word32) (sl : Slot) ran rem,
    s.init = true → s.slots[m]? = some sl → sl.len ≤ 8 → (sl.crcMode = .crc8 → 2 ≤ sl.len) →
    s.env = ran ++ .reset :: rem → Move.reset ∉ ran → turns ran ≤ 11 + sl.len.toNat →
    ∃ u f t, exec (.xcvSend m ts) { s with env := [] } = .next u ∧ u.txq = s.txq ++ f ∧
      f.length = 11 + sl.len.toNat ∧ f[10 + sl.len.toNat]? = some 0xBB ∧
      exec (.xcvSend m ts) s = .next t ∧
      t = { s with
        slots := List.replicate s.slots.length Slot.reset
        init := false
        fault := .none
        scratch := t.scratch
        rx := t.rx
        rxq := s.rxq ++ arrivals ran
        txq := s.txq ++ f.take (turns ran)
        clk := s.clk + elapsed ran
        env := rem } ∧
      t.rx.state = .idle

/-! ### Receive -/

/-- R116 (D10): a receive before `XCV.BEGIN` is rejected with no effect: nothing is read, `FAULT` keeps its value. -/
def Obligations.ReceiveBeforeBeginIsRejected : Prop :=
  ∀ (s : State) m tmo, s.init = false →
    exec (.xcvRecv m tmo) s = .next { s with responses := s.responses ++ [⟨.invalidConfig, none⟩] }

/-- R143: `NoIncomingData`, code 2, in its two cases: `RXQ` empty when the operation starts, and a first byte that is not
`0xAA`, which is consumed. Whatever the budget and the schedule, the call ends at once, and the slot is untouched. -/
def Obligations.NoIncomingDataOnEmptyStreamOrStrayByte : Prop :=
  (faultCode .noIncomingData = 2) ∧
  ∀ (s : State) m tmo, s.init = true → m < s.slots.length → (s.rxq = [] ∨ ∃ b q, s.rxq = b :: q ∧ b ≠ 0xAA) →
    ∃ rx, rx.state = .idle ∧ exec (.xcvRecv m tmo) s =
      .next { s with fault := .noIncomingData, rx := rx, rxq := s.rxq.tail, responses := s.responses ++ [⟨.fail, none⟩] }

/-- R115, R124, R130, R135 case 4 (D24): into a slot in `None` mode, whatever it held, and whatever the environment does
meanwhile: a frame with its end delimiter at the expected place or later in the window is rebuilt; `TS`, `LEN`, `ID` and
`PAYLOAD[0 .. LEN)` are the received values, the bytes above `LEN`, `CTR` and `CRC` stay; the frame is consumed up to its
end delimiter and no further. A length byte above 8 counts as 8 (R67). -/
def Obligations.ReceiveRebuildsTheFrame : Prop :=
  ∀ (s : State) m tmo sl ts (l : Byte) id pl gap rest,
    s.init = true → s.slots[m]? = some sl → sl.crcMode = .none → Move.reset ∉ s.env →
    pl.length = min l.toNat 8 → (0xBB : Byte) ∉ gap → pl.length + gap.length ≤ 8 →
    s.rxq = 0xAA :: (wireHeader ts l id ++ pl ++ gap ++ 0xBB :: rest) →
    ∃ t P, exec (.xcvRecv m tmo) s = .next t ∧ PayloadFrom sl.payload pl P ∧
      t = { s with
        slots := s.slots.set m { sl with ts := ts, len := BitVec.ofNat 8 pl.length, id := id, payload := P }
        fault := .none
        rx := t.rx
        rxq := t.rxq
        clk := t.clk
        env := t.env
        responses := s.responses ++ [⟨.ok, none⟩] } ∧
      t.rx.state = .idle ∧ s.EnvRan t rest

/-- R127 to R130 (covered range by D2, `CRC` by D20): the same into a slot in `CRC8` mode with a received `LEN` of at least
2: `CTR` is the received counter byte, `CRC` the checksum of the first `LEN-2` payload bytes; success when it equals the
last payload byte, else `CrcMismatch`, and the received data stays. -/
def Obligations.ReceiveVerifiesTheChecksum : Prop :=
  ∀ (s : State) m tmo sl ts (l : Byte) id data c k gap rest,
    s.init = true → s.slots[m]? = some sl → sl.crcMode = .crc8 → Move.reset ∉ s.env →
    data.length + 2 = min l.toNat 8 → (0xBB : Byte) ∉ gap → data.length + 2 + gap.length ≤ 8 →
    s.rxq = 0xAA :: (wireHeader ts l id ++ (data ++ [c, k]) ++ gap ++ 0xBB :: rest) →
    ∃ t P, exec (.xcvRecv m tmo) s = .next t ∧ PayloadFrom sl.payload (data ++ [c, k]) P ∧
      t = { s with
        slots := s.slots.set m
          { sl with
            ts := ts
            len := BitVec.ofNat 8 (data.length + 2)
            id := id
            payload := P
            ctr := c
            crc := crc8 Config.params.table data }
        fault := if crc8 Config.params.table data = k then .none else .crcMismatch
        rx := t.rx
        rxq := t.rxq
        clk := t.clk
        env := t.env
        responses := s.responses ++ [⟨if crc8 Config.params.table data = k then .ok else .fail, none⟩] } ∧
      t.rx.state = .idle ∧ s.EnvRan t rest

/-- R126 (D4): into a slot in `CRC8` mode, a frame with a received `LEN` of 0 or 1 ends with `CrcMismatch`; `CTR` and `CRC`
stay. -/
def Obligations.ReceiveWithoutRoomForChecksumFails : Prop :=
  ∀ (s : State) m tmo sl ts (l : Byte) id pl gap rest,
    s.init = true → s.slots[m]? = some sl → sl.crcMode = .crc8 → Move.reset ∉ s.env →
    pl.length = l.toNat → l < 2 → (0xBB : Byte) ∉ gap → pl.length + gap.length ≤ 8 →
    s.rxq = 0xAA :: (wireHeader ts l id ++ pl ++ gap ++ 0xBB :: rest) →
    ∃ t P, exec (.xcvRecv m tmo) s = .next t ∧ PayloadFrom sl.payload pl P ∧
      t = { s with
        slots := s.slots.set m { sl with ts := ts, len := l, id := id, payload := P }
        fault := .crcMismatch
        rx := t.rx
        rxq := t.rxq
        clk := t.clk
        env := t.env
        responses := s.responses ++ [⟨.fail, none⟩] } ∧
      t.rx.state = .idle ∧ s.EnvRan t rest

/-- R145: `MissingEndDelimiter`, code 4, when no `0xBB` stands at an index of the window from `9+LEN` to 17: 19 bytes are
consumed, header and payload are stored, in both modes, and no checksum is computed. -/
def Obligations.MissingEndDelimiterAfterTheWholeWindow : Prop :=
  (faultCode .missingEndDelimiter = 4) ∧
  ∀ (s : State) m tmo sl ts (l : Byte) id pl gap rest,
    s.init = true → s.slots[m]? = some sl → Move.reset ∉ s.env →
    pl.length = min l.toNat 8 → (0xBB : Byte) ∉ gap → pl.length + gap.length = 9 →
    s.rxq = 0xAA :: (wireHeader ts l id ++ pl ++ gap ++ rest) →
    ∃ t P, exec (.xcvRecv m tmo) s = .next t ∧ PayloadFrom sl.payload pl P ∧
      t = { s with
        slots := s.slots.set m { sl with ts := ts, len := BitVec.ofNat 8 pl.length, id := id, payload := P }
        fault := .missingEndDelimiter
        rx := t.rx
        rxq := t.rxq
        clk := t.clk
        env := t.env
        responses := s.responses ++ [⟨.fail, none⟩] } ∧
      t.rx.state = .idle ∧ s.EnvRan t rest

/-- R119, R132 (comparison by D14, no rollback by D15): the window bytes `ws` are there and the parser polls once for each;
then `RXQ` is empty and the clock advances by at least the budget. The receive ends with `Timeout` at index `ws.length`, at
any index 0 to 17; `1 + ws.length` bytes are gone, and the fields written so far keep what was written: three window bytes
leave three folds. -/
def Obligations.TimeoutKeepsThePartialSlot : Prop :=
  ∀ (s : State) m tmo sl (ws : List Byte) ms,
    s.init = true → s.slots[m]? = some sl → ws.length ≤ 17 → tmo ≤ ms →
    (∀ l j b, ws[4]? = some l → 9 + min l.toNat 8 ≤ j → ws[j]? = some b → b ≠ 0xBB) →
    s.rxq = 0xAA :: ws → s.env = List.replicate ws.length .block ++ [.advance ms] →
    ∃ t P, exec (.xcvRecv m tmo) s = .next t ∧
      t = { s with
        slots := s.slots.set m
          { sl with
            ts := (ws.take 4).foldl fold sl.ts
            len := if let some l := ws[4]? then (if l ≤ 8 then l else 8) else sl.len
            id := ((ws.drop 5).take 4).foldl fold sl.id
            payload := P }
        fault := .timeout
        rx := t.rx
        rxq := []
        clk := s.clk + ms
        env := []
        responses := s.responses ++ [⟨.fail, none⟩] } ∧
      t.rx.state = .idle ∧
      ∀ k (h : k < Config.payloadSize),
        P[k] = if ∃ l, ws[4]? = some l ∧ k < l.toNat then (ws[9 + k]?).getD sl.payload[k] else sl.payload[k]

/-- R118, R131 last row, R155 (schedule by log 2): with `RXQ` empty, the budget not spent, and nothing scheduled, the parser
waits: the step changes nothing and the machine does not stop. -/
def Obligations.WaitingReceiveMakesNoProgress : Prop :=
  ∀ s : State, s.rx.state = .readFixedWindow → s.rxq = [] → s.env = [] → s.clk - s.rx.t0 < s.rx.tmo → step s = .next s

/-- R119, R144 for a receive that has been waiting: `RXQ` empty and the elapsed time, modulo `2^32`, at least the budget
(D14): one step ends it with `Timeout`; the slots stay as they are. -/
def Obligations.SpentBudgetEndsTheWait : Prop :=
  ∀ s : State, s.rx.state = .readFixedWindow → s.rxq = [] → s.env = [] → s.rx.tmo ≤ s.clk - s.rx.t0 →
    step s = .next { s with
      fault := .timeout
      rx := { s.rx with state := .idle }
      responses := s.responses ++ [⟨.fail, none⟩] }

/-- R66, R120 to R125, R131 (clamp R67, availability before the budget by D14): one row of the parser, at each kind of
window index. Whatever the clock says, a byte that is there is taken. -/
def Obligations.WindowIndexDecidesTheUseOfAByte : Prop :=
  ∀ (s : State) b q sl i, s.rx.state = .readFixedWindow → s.rxq = b :: q → s.env = [] →
    s.slots[s.rx.m]? = some sl → sl.len ≤ 8 → s.rx.i = BitVec.ofNat 5 i → i ≤ 17 →
    (i < 4 → step s = .next { s with
      rxq := q, slots := s.slots.set s.rx.m { sl with ts := (sl.ts >>> 8) ||| (b.setWidth 32 <<< 24) }
      rx := { s.rx with i := BitVec.ofNat 5 (i + 1), t0 := s.clk } }) ∧
    (i = 4 → step s = .next { s with
      rxq := q, slots := s.slots.set s.rx.m { sl with len := BitVec.ofNat 8 (min b.toNat 8) }
      rx := { s.rx with i := BitVec.ofNat 5 (i + 1), t0 := s.clk } }) ∧
    (4 < i ∧ i < 9 → step s = .next { s with
      rxq := q, slots := s.slots.set s.rx.m { sl with id := (sl.id >>> 8) ||| (b.setWidth 32 <<< 24) }
      rx := { s.rx with i := BitVec.ofNat 5 (i + 1), t0 := s.clk } }) ∧
    (9 ≤ i ∧ i < 9 + sl.len.toNat → ∃ P, step s = .next { s with
      rxq := q, slots := s.slots.set s.rx.m { sl with payload := P }
      rx := { s.rx with i := BitVec.ofNat 5 (i + 1), t0 := s.clk } } ∧
      P[i - 9]? = some b ∧ ∀ k, k ≠ i - 9 → P[k]? = sl.payload[k]?) ∧
    (9 + sl.len.toNat ≤ i ∧ b ≠ 0xBB ∧ i < 17 → step s = .next { s with
      rxq := q, rx := { s.rx with i := BitVec.ofNat 5 (i + 1), t0 := s.clk } }) ∧
    (9 + sl.len.toNat ≤ i ∧ b ≠ 0xBB ∧ i = 17 → step s = .next { s with
      rxq := q, fault := .missingEndDelimiter, rx := { s.rx with state := .idle }
      responses := s.responses ++ [⟨.fail, none⟩] }) ∧
    (9 + sl.len.toNat ≤ i ∧ b = 0xBB ∧ sl.crcMode = .none → step s = .next { s with
      rxq := q, fault := .none, rx := { s.rx with state := .idle, found := true }
      responses := s.responses ++ [⟨.ok, none⟩] })

/-- R68, R120, R122 (the fold by D7): four folds give the little-endian value of the four bytes, whatever the accumulator
held; fewer leave the old value's upper bits, moved down, below the bytes received. -/
def Obligations.FourFoldsRebuildTheLittleEndianValue : Prop :=
  (∀ acc v : Word32, (wireWord v).foldl fold acc = v) ∧
  ∀ (acc : Word32) (bytes : List Byte), bytes.length < 4 →
    (bytes.foldl fold acc).toNat % 2 ^ (32 - 8 * bytes.length) = acc.toNat / 2 ^ (8 * bytes.length) ∧
    ∀ j b, bytes[j]? = some b → ((bytes.foldl fold acc) >>> (32 - 8 * (bytes.length - j))).setWidth 8 = b

/-- R134 (D24): a receive removes at most 19 bytes from the head of `RXQ`, of what was there or arrived meanwhile, and puts
none back; it sends nothing. A slot it does not name, `CRCMODE`, `INIT` and `SCRATCH` stay. -/
def Obligations.ReceiveConsumesAtMostNineteenBytes : Prop :=
  ∀ (s t : State) m tmo, Move.reset ∉ s.env → exec (.xcvRecv m tmo) s = .next t →
    (∃ n ran, n ≤ 19 ∧ n ≤ (s.rxq ++ arrivals ran).length ∧ s.env = ran ++ t.env ∧
      t.rxq = (s.rxq ++ arrivals ran).drop n ∧ t.clk = s.clk + elapsed ran) ∧
    t.txq = s.txq ∧ t.init = s.init ∧ t.scratch = s.scratch ∧ t.begun = s.begun ∧ t.port = s.port ∧
    (∀ j, j ≠ m → t.slots[j]? = s.slots[j]?) ∧
    (t.slots[m]?).map Slot.crcMode = (s.slots[m]?).map Slot.crcMode

/-- R131: the blocking procedure of R115 and the state machine agree, for every arrival pattern: after the row of
`AwaitStart`, some number of steps of the machine reaches exactly the state the operation answers; there the receive has
ended, or the schedule is exhausted and the parser waits for ever (R155). -/
def Obligations.BlockingProcedureIsTheStateMachine : Prop :=
  ∀ (s : State) m tmo, s.init = true → m < s.slots.length →
    ∃ s1 k t, awaitStartRow (s.acceptReceive m tmo) = .next s1 ∧ exec (.xcvRecv m tmo) s = .next t ∧
      Sys2Proof.core.run k s1 = .next t ∧
      (t.rx.state = .idle ∨
        t.rx.state = .readFixedWindow ∧ t.rxq = [] ∧ t.env = [] ∧ t.responses = s.responses ∧ step t = .next t)

/-- R85, R105, R115 (D2): a frame sent by this block, with no reset in the send (its turns by log 2), and received unaltered
by a block with the same table passes: with the sender's bytes at the head of the receiver's `RXQ`, and whatever either
environment does meanwhile, the receive succeeds and gives back identifier, length, timestamp operand and payload as sent;
and, when both slots are in `CRC8` mode, the counter the frame carries. -/
def Obligations.SentFrameIsReceivedAsSent : Prop :=
  ∀ (s r : State) a b ts tmo sl sb,
    s.init = true → s.slots[a]? = some sl → sl.len ≤ 8 → (sl.crcMode = .crc8 → 2 ≤ sl.len) →
    Uncut (12 + sl.len.toNat) s.env →
    r.init = true → r.slots[b]? = some sb → (sb.crcMode = .none ∨ sb.crcMode = sl.crcMode) → Move.reset ∉ r.env →
    ∃ t f sent, exec (.xcvSend a ts) s = .next t ∧ t.txq = s.txq ++ f ∧ t.slots[a]? = some sent ∧
      ∀ rest, r.rxq = f ++ rest →
        ∃ u got, exec (.xcvRecv b tmo) r = .next u ∧ u.slots[b]? = some got ∧
          got.id = sl.id ∧ got.len = sl.len ∧ got.ts = ts ∧
          (∀ k, k < sl.len.toNat → got.payload[k]? = sent.payload[k]?) ∧
          (sb.crcMode = .crc8 → got.ctr = sl.ctr) ∧
          u.fault = .none ∧ u.responses = r.responses ++ [⟨.ok, none⟩] ∧ r.EnvRan u rest

/-- R119, R133, R155 (D14, D27): whatever a receive waits for, the clock can end its wait: some advance of the clock, followed
by the block's poll, gives `Timeout`. -/
def Obligations.ClockCanEndEveryWait : Prop :=
  ∀ s : State, s.rx.state = .readFixedWindow → s.rxq = [] →
    ∃ ms t u, step { s with env := [.advance ms] } = .next t ∧ step t = .next u ∧
      u.fault = .timeout ∧ u.rx.state = .idle ∧ u.slots = s.slots ∧ u.responses = s.responses ++ [⟨.fail, none⟩]

/-- R133, R134: with 19 bytes in `RXQ` when it starts, a receive ends without waiting, whatever the budget, the clock and the
schedule; it gives one response, and its fault is not `Timeout`. -/
def Obligations.ReceiveEndsOnceTheWindowIsThere : Prop :=
  ∀ (s : State) m tmo, s.init = true → m < s.slots.length → 19 ≤ s.rxq.length → Move.reset ∉ s.env →
    ∃ t, exec (.xcvRecv m tmo) s = .next t ∧ t.rx.state = .idle ∧ t.fault ≠ .timeout ∧
      ∃ st, st ≠ .invalidConfig ∧ t.responses = s.responses ++ [⟨st, none⟩]

/-! ### The whole machine -/

/-- The invariant of the reachable states holds after reset, for every number of slots from 1 on (R161). -/
def Obligations.InvariantHoldsAfterReset : Prop := ∀ n, 1 ≤ n → (State.resetWith n).Inv

/-- R12, R25, R27, R116, R131: every step keeps the invariant: `LEN <= 8` in every slot, and the parser's registers in
their ranges. -/
def Obligations.EveryStepKeepsTheInvariant : Prop := ∀ s t : State, s.Inv → step s = .next t → t.Inv

/-- R41, R141, R142: no reachable state forms an index outside its space, and no error stops the block: in every state of
the invariant the machine goes on. -/
def Obligations.InvariantStatesNeverStop : Prop := ∀ s : State, s.Inv → s.Goes

/-- R21, R103 (D10, D19): no operation but `XCV.RECV` changes `FAULT`; a receive that is rejected does not either, and a send
only where a reset cuts it off (R163). -/
def Obligations.OnlyReceiveWritesTheFaultRegister : Prop :=
  ∀ (i : Instr) (s t : State), (∀ m tmo, i = .xcvRecv m tmo → s.init = false ∨ s.slots.length ≤ m) →
    (∀ m ts, i = .xcvSend m ts → Move.reset ∉ s.env) → exec i s = .next t → t.fault = s.fault

/-- R20 (D21): once the Transceiver is ready, no step but a reset makes it unready. -/
def Obligations.OnlyResetClearsInit : Prop :=
  ∀ s t : State, s.init = true → Move.reset ∉ s.env → step s = .next t → t.init = true

/-- R13, R18, C3: `CRCMODE` is written by `MSG.INIT` alone, and only in the slot it names. -/
def Obligations.OnlyInitWritesTheCrcMode : Prop :=
  ∀ (i : Instr) (s t : State) j, (∀ id len mode, i ≠ .msgInit j id len mode) → Move.reset ∉ s.env → exec i s = .next t →
    (t.slots[j]?).map Slot.crcMode = (s.slots[j]?).map Slot.crcMode

/-- R18, the matrix of who writes which slot field: a field marked `-` is unchanged in every case, and so is every slot the
operation does not name. -/
def Obligations.SlotFieldsChangeOnlyAsTheMatrixSays : Prop :=
  ∀ (i : Instr) (s t : State), Move.reset ∉ s.env → exec i s = .next t →
    (∀ j, (∀ id len mode, i ≠ .msgInit j id len mode) → (∀ w vals, i ≠ .msgPackv j w vals) →
      (∀ text, i ≠ .msgPackt j text) → (∀ ts, i ≠ .xcvSend j ts) → (∀ tmo, i ≠ .xcvRecv j tmo) →
      t.slots[j]? = s.slots[j]?) ∧
    (∀ m sl sl', s.slots[m]? = some sl → t.slots[m]? = some sl' →
      ((∃ w vals, i = .msgPackv m w vals) ∨ (∃ text, i = .msgPackt m text) → sl' = { sl with payload := sl'.payload }) ∧
      ((∃ ts, i = .xcvSend m ts) → sl' = { sl with payload := sl'.payload, ctr := sl'.ctr } ∧
        (sl.crcMode = .none → sl'.payload = sl.payload)) ∧
      ((∃ tmo, i = .xcvRecv m tmo) →
        sl'.crcMode = sl.crcMode ∧ (sl.crcMode = .none → sl'.ctr = sl.ctr ∧ sl'.crc = sl.crc)))

/-- R28, R40, R46, R48: no operation but `XCV.RECV` touches the receive side: `RXQ`, the parser, the clock and the schedule
stay; while a send takes its turns (log 2) the environment goes on, and unless a reset cuts the send off, `RXQ` only gains
what arrives, and the parser stays. `TXQ` is only ever appended to, and by `XCV.SEND` alone, also where a reset cuts the
operation off (R163). No operation takes or adds a command at the port (log 1); that those presented stay also where a reset
cuts a send or a receive off is the model's choice, log 9. The number of slots stays (R10). -/
def Obligations.OnlyReceiveTouchesTheReceiveSide : Prop :=
  ∀ (i : Instr) (s t : State), exec i s = .next t →
    ((∀ m tmo, i ≠ .xcvRecv m tmo) → (∀ m ts, i ≠ .xcvSend m ts) →
      t.rxq = s.rxq ∧ t.rx = s.rx ∧ t.clk = s.clk ∧ t.env = s.env) ∧
    ((∃ m ts, i = .xcvSend m ts) → Move.reset ∉ s.env → t.rx = s.rx ∧ s.EnvRan t s.rxq) ∧
    t.port = s.port ∧ (∃ f, t.txq = s.txq ++ f) ∧ ((∀ m ts, i ≠ .xcvSend m ts) → t.txq = s.txq) ∧
    t.slots.length = s.slots.length

/-- R140: every operation that ends gives exactly one response, and only `XCV.RECV` can give `FAIL`; a receive that is still
in flight has given none. -/
def Obligations.EveryOperationGivesOneResponse : Prop :=
  ∀ (i : Instr) (s t : State), s.rx.state = .idle → Move.reset ∉ s.env → exec i s = .next t →
    (t.rx.state = .idle → ∃ r, t.responses = s.responses ++ [r] ∧ (r.status = .fail → ∃ m tmo, i = .xcvRecv m tmo)) ∧
    (t.rx.state ≠ .idle → t.responses = s.responses ∧ ∃ m tmo, i = .xcvRecv m tmo)

/-- R141, R151 (D10): an operation answered with `INVALID_CONFIG` has changed nothing: the state after it is the state before
it, but for the response. -/
def Obligations.InvalidConfigurationHasNoEffect : Prop :=
  ∀ (i : Instr) (s t : State) r, exec i s = .next t → t.responses = s.responses ++ [⟨.invalidConfig, r⟩] →
    t = { s with responses := s.responses ++ [⟨.invalidConfig, none⟩] }
end

