-- ==== Sys2Proof/Laws/State.lean ====
section
/-! SUPPORT. What each update of State leaves in each field, so that no later proof unfolds a record update. -/

namespace Sys2Proof.Machine

variable (s : State)

@[simp] theorem State.setSlot_slots (m : Nat) (sl : Slot) : (s.setSlot m sl).slots = s.slots.set m sl := rfl
@[simp] theorem State.setSlot_init (m : Nat) (sl : Slot) : (s.setSlot m sl).init = s.init := rfl
@[simp] theorem State.setSlot_fault (m : Nat) (sl : Slot) : (s.setSlot m sl).fault = s.fault := rfl
@[simp] theorem State.setSlot_scratch (m : Nat) (sl : Slot) : (s.setSlot m sl).scratch = s.scratch := rfl
@[simp] theorem State.setSlot_rx (m : Nat) (sl : Slot) : (s.setSlot m sl).rx = s.rx := rfl
@[simp] theorem State.setSlot_rxq (m : Nat) (sl : Slot) : (s.setSlot m sl).rxq = s.rxq := rfl
@[simp] theorem State.setSlot_txq (m : Nat) (sl : Slot) : (s.setSlot m sl).txq = s.txq := rfl
@[simp] theorem State.setSlot_clk (m : Nat) (sl : Slot) : (s.setSlot m sl).clk = s.clk := rfl
@[simp] theorem State.setSlot_begun (m : Nat) (sl : Slot) : (s.setSlot m sl).begun = s.begun := rfl
@[simp] theorem State.setSlot_port (m : Nat) (sl : Slot) : (s.setSlot m sl).port = s.port := rfl
@[simp] theorem State.setSlot_responses (m : Nat) (sl : Slot) : (s.setSlot m sl).responses = s.responses := rfl
@[simp] theorem State.setSlot_env (m : Nat) (sl : Slot) : (s.setSlot m sl).env = s.env := rfl

@[simp] theorem State.txWrite_slots (b : Byte) : (s.txWrite b).slots = s.slots := rfl
@[simp] theorem State.txWrite_init (b : Byte) : (s.txWrite b).init = s.init := rfl
@[simp] theorem State.txWrite_fault (b : Byte) : (s.txWrite b).fault = s.fault := rfl
@[simp] theorem State.txWrite_scratch (b : Byte) : (s.txWrite b).scratch = s.scratch := rfl
@[simp] theorem State.txWrite_rx (b : Byte) : (s.txWrite b).rx = s.rx := rfl
@[simp] theorem State.txWrite_rxq (b : Byte) : (s.txWrite b).rxq = s.rxq := rfl
@[simp] theorem State.txWrite_txq (b : Byte) : (s.txWrite b).txq = s.txq ++ [b] := rfl
@[simp] theorem State.txWrite_clk (b : Byte) : (s.txWrite b).clk = s.clk := rfl
@[simp] theorem State.txWrite_begun (b : Byte) : (s.txWrite b).begun = s.begun := rfl
@[simp] theorem State.txWrite_port (b : Byte) : (s.txWrite b).port = s.port := rfl
@[simp] theorem State.txWrite_responses (b : Byte) : (s.txWrite b).responses = s.responses := rfl
@[simp] theorem State.txWrite_env (b : Byte) : (s.txWrite b).env = s.env := rfl

@[simp] theorem State.respond_slots (st : Status) (r : Option Byte) : (s.respond st r).slots = s.slots := rfl
@[simp] theorem State.respond_init (st : Status) (r : Option Byte) : (s.respond st r).init = s.init := rfl
@[simp] theorem State.respond_fault (st : Status) (r : Option Byte) : (s.respond st r).fault = s.fault := rfl
@[simp] theorem State.respond_scratch (st : Status) (r : Option Byte) : (s.respond st r).scratch = s.scratch := rfl
@[simp] theorem State.respond_rx (st : Status) (r : Option Byte) : (s.respond st r).rx = s.rx := rfl
@[simp] theorem State.respond_rxq (st : Status) (r : Option Byte) : (s.respond st r).rxq = s.rxq := rfl
@[simp] theorem State.respond_txq (st : Status) (r : Option Byte) : (s.respond st r).txq = s.txq := rfl
@[simp] theorem State.respond_clk (st : Status) (r : Option Byte) : (s.respond st r).clk = s.clk := rfl
@[simp] theorem State.respond_begun (st : Status) (r : Option Byte) : (s.respond st r).begun = s.begun := rfl
@[simp] theorem State.respond_port (st : Status) (r : Option Byte) : (s.respond st r).port = s.port := rfl
@[simp] theorem State.respond_responses (st : Status) (r : Option Byte) : (s.respond st r).responses =
    s.responses ++ [{ status := st, result := r }] := rfl
@[simp] theorem State.respond_env (st : Status) (r : Option Byte) : (s.respond st r).env = s.env := rfl

@[simp] theorem State.ok_slots : (s.ok).slots = s.slots := rfl
@[simp] theorem State.ok_init : (s.ok).init = s.init := rfl
@[simp] theorem State.ok_fault : (s.ok).fault = s.fault := rfl
@[simp] theorem State.ok_scratch : (s.ok).scratch = s.scratch := rfl
@[simp] theorem State.ok_rx : (s.ok).rx = s.rx := rfl
@[simp] theorem State.ok_rxq : (s.ok).rxq = s.rxq := rfl
@[simp] theorem State.ok_txq : (s.ok).txq = s.txq := rfl
@[simp] theorem State.ok_clk : (s.ok).clk = s.clk := rfl
@[simp] theorem State.ok_begun : (s.ok).begun = s.begun := rfl
@[simp] theorem State.ok_port : (s.ok).port = s.port := rfl
@[simp] theorem State.ok_responses : (s.ok).responses = s.responses ++ [{ status := .ok, result := none }] := rfl
@[simp] theorem State.ok_env : (s.ok).env = s.env := rfl

@[simp] theorem State.reject_slots : (s.reject).slots = s.slots := rfl
@[simp] theorem State.reject_init : (s.reject).init = s.init := rfl
@[simp] theorem State.reject_fault : (s.reject).fault = s.fault := rfl
@[simp] theorem State.reject_scratch : (s.reject).scratch = s.scratch := rfl
@[simp] theorem State.reject_rx : (s.reject).rx = s.rx := rfl
@[simp] theorem State.reject_rxq : (s.reject).rxq = s.rxq := rfl
@[simp] theorem State.reject_txq : (s.reject).txq = s.txq := rfl
@[simp] theorem State.reject_clk : (s.reject).clk = s.clk := rfl
@[simp] theorem State.reject_begun : (s.reject).begun = s.begun := rfl
@[simp] theorem State.reject_port : (s.reject).port = s.port := rfl
@[simp] theorem State.reject_responses : (s.reject).responses =
    s.responses ++ [{ status := .invalidConfig, result := none }] := rfl
@[simp] theorem State.reject_env : (s.reject).env = s.env := rfl

@[simp] theorem State.finish_slots (f : FaultReason) : (s.finish f).slots = s.slots := rfl
@[simp] theorem State.finish_init (f : FaultReason) : (s.finish f).init = s.init := rfl
@[simp] theorem State.finish_fault (f : FaultReason) : (s.finish f).fault = f := rfl
@[simp] theorem State.finish_scratch (f : FaultReason) : (s.finish f).scratch = s.scratch := rfl
@[simp] theorem State.finish_rx (f : FaultReason) : (s.finish f).rx = { s.rx with state := .idle } := rfl
@[simp] theorem State.finish_rxq (f : FaultReason) : (s.finish f).rxq = s.rxq := rfl
@[simp] theorem State.finish_txq (f : FaultReason) : (s.finish f).txq = s.txq := rfl
@[simp] theorem State.finish_clk (f : FaultReason) : (s.finish f).clk = s.clk := rfl
@[simp] theorem State.finish_begun (f : FaultReason) : (s.finish f).begun = s.begun := rfl
@[simp] theorem State.finish_port (f : FaultReason) : (s.finish f).port = s.port := rfl
@[simp] theorem State.finish_responses (f : FaultReason) : (s.finish f).responses =
    s.responses ++ [{ status := statusOf f, result := none }] := rfl
@[simp] theorem State.finish_env (f : FaultReason) : (s.finish f).env = s.env := rfl

@[simp] theorem State.blockReset_slots : (s.blockReset).slots = List.replicate s.slots.length Slot.reset := rfl
@[simp] theorem State.blockReset_init : (s.blockReset).init = false := rfl
@[simp] theorem State.blockReset_fault : (s.blockReset).fault = .none := rfl
@[simp] theorem State.blockReset_scratch : (s.blockReset).scratch = Vector.replicate Config.scratchSize 0 := rfl
@[simp] theorem State.blockReset_rx : (s.blockReset).rx = Rx.reset := rfl
@[simp] theorem State.blockReset_rxq : (s.blockReset).rxq = s.rxq := rfl
@[simp] theorem State.blockReset_txq : (s.blockReset).txq = s.txq := rfl
@[simp] theorem State.blockReset_clk : (s.blockReset).clk = s.clk := rfl
@[simp] theorem State.blockReset_begun : (s.blockReset).begun = s.begun := rfl
@[simp] theorem State.blockReset_port : (s.blockReset).port = s.port := rfl
@[simp] theorem State.blockReset_responses : (s.blockReset).responses = s.responses := rfl
@[simp] theorem State.blockReset_env : (s.blockReset).env = s.env := rfl

@[simp] theorem State.arrive_slots (b : Byte) : (s.arrive b).slots = s.slots := rfl
@[simp] theorem State.arrive_init (b : Byte) : (s.arrive b).init = s.init := rfl
@[simp] theorem State.arrive_fault (b : Byte) : (s.arrive b).fault = s.fault := rfl
@[simp] theorem State.arrive_scratch (b : Byte) : (s.arrive b).scratch = s.scratch := rfl
@[simp] theorem State.arrive_rx (b : Byte) : (s.arrive b).rx = s.rx := rfl
@[simp] theorem State.arrive_rxq (b : Byte) : (s.arrive b).rxq = s.rxq ++ [b] := rfl
@[simp] theorem State.arrive_txq (b : Byte) : (s.arrive b).txq = s.txq := rfl
@[simp] theorem State.arrive_clk (b : Byte) : (s.arrive b).clk = s.clk := rfl
@[simp] theorem State.arrive_begun (b : Byte) : (s.arrive b).begun = s.begun := rfl
@[simp] theorem State.arrive_port (b : Byte) : (s.arrive b).port = s.port := rfl
@[simp] theorem State.arrive_responses (b : Byte) : (s.arrive b).responses = s.responses := rfl
@[simp] theorem State.arrive_env (b : Byte) : (s.arrive b).env = s.env := rfl

@[simp] theorem State.advance_slots (ms : Word32) : (s.advance ms).slots = s.slots := rfl
@[simp] theorem State.advance_init (ms : Word32) : (s.advance ms).init = s.init := rfl
@[simp] theorem State.advance_fault (ms : Word32) : (s.advance ms).fault = s.fault := rfl
@[simp] theorem State.advance_scratch (ms : Word32) : (s.advance ms).scratch = s.scratch := rfl
@[simp] theorem State.advance_rx (ms : Word32) : (s.advance ms).rx = s.rx := rfl
@[simp] theorem State.advance_rxq (ms : Word32) : (s.advance ms).rxq = s.rxq := rfl
@[simp] theorem State.advance_txq (ms : Word32) : (s.advance ms).txq = s.txq := rfl
@[simp] theorem State.advance_clk (ms : Word32) : (s.advance ms).clk = s.clk + ms := rfl
@[simp] theorem State.advance_begun (ms : Word32) : (s.advance ms).begun = s.begun := rfl
@[simp] theorem State.advance_port (ms : Word32) : (s.advance ms).port = s.port := rfl
@[simp] theorem State.advance_responses (ms : Word32) : (s.advance ms).responses = s.responses := rfl
@[simp] theorem State.advance_env (ms : Word32) : (s.advance ms).env = s.env := rfl

@[simp] theorem State.acceptReceive_slots (m : Nat) (t : Word32) : (s.acceptReceive m t).slots = s.slots := rfl
@[simp] theorem State.acceptReceive_init (m : Nat) (t : Word32) : (s.acceptReceive m t).init = s.init := rfl
@[simp] theorem State.acceptReceive_fault (m : Nat) (t : Word32) : (s.acceptReceive m t).fault = s.fault := rfl
@[simp] theorem State.acceptReceive_scratch (m : Nat) (t : Word32) : (s.acceptReceive m t).scratch = s.scratch := rfl
@[simp] theorem State.acceptReceive_rx (m : Nat) (t : Word32) : (s.acceptReceive m t).rx =
    { s.rx with state := .awaitStart, m := m, tmo := t } := rfl
@[simp] theorem State.acceptReceive_rxq (m : Nat) (t : Word32) : (s.acceptReceive m t).rxq = s.rxq := rfl
@[simp] theorem State.acceptReceive_txq (m : Nat) (t : Word32) : (s.acceptReceive m t).txq = s.txq := rfl
@[simp] theorem State.acceptReceive_clk (m : Nat) (t : Word32) : (s.acceptReceive m t).clk = s.clk := rfl
@[simp] theorem State.acceptReceive_begun (m : Nat) (t : Word32) : (s.acceptReceive m t).begun = s.begun := rfl
@[simp] theorem State.acceptReceive_port (m : Nat) (t : Word32) : (s.acceptReceive m t).port = s.port := rfl
@[simp] theorem State.acceptReceive_responses (m : Nat) (t : Word32) : (s.acceptReceive m t).responses =
    s.responses := rfl
@[simp] theorem State.acceptReceive_env (m : Nat) (t : Word32) : (s.acceptReceive m t).env = s.env := rfl

@[simp] theorem State.enterWindow_slots : (s.enterWindow).slots = s.slots := rfl
@[simp] theorem State.enterWindow_init : (s.enterWindow).init = s.init := rfl
@[simp] theorem State.enterWindow_fault : (s.enterWindow).fault = s.fault := rfl
@[simp] theorem State.enterWindow_scratch : (s.enterWindow).scratch = s.scratch := rfl
@[simp] theorem State.enterWindow_rx : (s.enterWindow).rx =
    { s.rx with state := .readFixedWindow, i := 0, found := false, t0 := s.clk } := rfl
@[simp] theorem State.enterWindow_rxq : (s.enterWindow).rxq = s.rxq := rfl
@[simp] theorem State.enterWindow_txq : (s.enterWindow).txq = s.txq := rfl
@[simp] theorem State.enterWindow_clk : (s.enterWindow).clk = s.clk := rfl
@[simp] theorem State.enterWindow_begun : (s.enterWindow).begun = s.begun := rfl
@[simp] theorem State.enterWindow_port : (s.enterWindow).port = s.port := rfl
@[simp] theorem State.enterWindow_responses : (s.enterWindow).responses = s.responses := rfl
@[simp] theorem State.enterWindow_env : (s.enterWindow).env = s.env := rfl

@[simp] theorem State.resetWith_slots (n : Nat) : (State.resetWith n).slots = List.replicate n Slot.reset := rfl
@[simp] theorem State.resetWith_rx (n : Nat) : (State.resetWith n).rx = Rx.reset := rfl
@[simp] theorem State.resetWith_init (n : Nat) : (State.resetWith n).init = false := rfl

end Sys2Proof.Machine
end

