-- ==== Sys2Proof/Laws/Ops.lean ====
section
/-! SUPPORT. What the byte-array operations, the slot operations and the byte assembly can do, said once. -/

namespace Sys2Proof.Machine

/-! ### Byte arrays -/

/-- Every byte of an array after a write. -/
theorem memWrite_getElem {n : Nat} (bs : List Byte) (v : Vector Byte n) (a k : Nat) (h : k < n) :
    (memWrite v a bs)[k] = if a ≤ k then (bs[k - a]?).getD v[k] else v[k] := by
  induction bs generalizing v a with
  | nil => simp [memWrite]
  | cons b bs ih =>
    rw [memWrite, ih, Vector.getElem_setIfInBounds]
    by_cases hlt : a + 1 ≤ k
    · have hsub : k - a = k - (a + 1) + 1 := by omega
      rw [if_pos hlt, if_pos (by omega : a ≤ k), if_neg (by omega : ¬ a = k), hsub, List.getElem?_cons_succ]
    · by_cases heq : a = k
      · subst heq; simp
      · rw [if_neg hlt, if_neg heq, if_neg (by omega)]

/-- A write at index 0 is what `PayloadFrom` says. -/
theorem memWrite_payloadFrom (v : Vector Byte Config.payloadSize) (bs : List Byte) :
    PayloadFrom v bs (memWrite v 0 bs) := fun k h => by simp [memWrite_getElem bs v 0 k h]

/-- The payload is determined by what `PayloadFrom` says. -/
theorem PayloadFrom.unique {v P Q : Vector Byte Config.payloadSize} {bs : List Byte} (hP : PayloadFrom v bs P)
    (hQ : PayloadFrom v bs Q) : P = Q := Vector.ext fun k h => (hP k h).trans (hQ k h).symm

theorem memWrite_append {n : Nat} (bs cs : List Byte) (v : Vector Byte n) (a : Nat) :
    memWrite v a (bs ++ cs) = memWrite (memWrite v a bs) (a + bs.length) cs := by
  induction bs generalizing v a with
  | nil => rfl
  | cons b bs ih => simp [memWrite, ih, Nat.add_assoc, Nat.add_comm 1]

theorem memRead_length {n : Nat} (v : Vector Byte n) (a k : Nat) (h : a + k ≤ n) : (memRead v a k).length = k := by
  simp [memRead]; omega

theorem memRead_getElem? {n : Nat} (v : Vector Byte n) (k j : Nat) :
    (memRead v 0 k)[j]? = if j < k then v[j]? else none := by
  simp [memRead, List.getElem?_take]

/-- Reading up to the end of a write that begins where the bytes read so far end. -/
theorem memRead_memWrite {n : Nat} (v : Vector Byte n) (a : Nat) (bs : List Byte) (h : a + bs.length ≤ n) :
    memRead (memWrite v a bs) 0 (a + bs.length) = memRead v 0 a ++ bs := by
  refine List.ext_getElem? fun j => ?_
  have hlen := memRead_length v 0 a (by omega)
  rw [memRead_getElem?]
  by_cases hj : j < a + bs.length
  · rw [if_pos hj, Vector.getElem?_eq_getElem (by omega), memWrite_getElem]
    by_cases ha : a ≤ j
    · rw [if_pos ha, List.getElem?_append_right (by omega), hlen, List.getElem?_eq_getElem (by omega)]; rfl
    · rw [if_neg ha, List.getElem?_append_left (by omega), memRead_getElem?, if_pos (by omega),
        Vector.getElem?_eq_getElem (by omega)]
  · rw [if_neg hj, List.getElem?_eq_none (by simp [hlen]; omega)]

/-- A write leaves the bytes before it alone. -/
theorem memRead_memWrite_before {n : Nat} (v : Vector Byte n) (a k : Nat) (bs : List Byte) (h : k ≤ a) :
    memRead (memWrite v a bs) 0 k = memRead v 0 k := by
  refine List.ext_getElem? fun j => ?_
  rw [memRead_getElem?, memRead_getElem?]
  by_cases hj : j < k
  · rw [if_pos hj, if_pos hj]
    by_cases hn : j < n
    · rw [Vector.getElem?_eq_getElem hn, Vector.getElem?_eq_getElem hn, memWrite_getElem, if_neg (by omega)]
    · rw [Vector.getElem?_eq_none (by omega), Vector.getElem?_eq_none (by omega)]
  · rw [if_neg hj, if_neg hj]

/-- A write leaves the bytes outside it alone. -/
theorem memWrite_getElem?_outside {n : Nat} (v : Vector Byte n) (a j : Nat) (bs : List Byte)
    (h : j < a ∨ a + bs.length ≤ j) : (memWrite v a bs)[j]? = v[j]? := by
  by_cases hn : j < n
  · rw [Vector.getElem?_eq_getElem hn, Vector.getElem?_eq_getElem hn, memWrite_getElem]
    split
    · rw [List.getElem?_eq_none (by omega)]; rfl
    · rfl
  · rw [Vector.getElem?_eq_none (by omega), Vector.getElem?_eq_none (by omega)]

/-- What one byte of a write holds afterwards. -/
theorem memWrite_getElem?_inside {n : Nat} (v : Vector Byte n) (a j : Nat) (bs : List Byte) (hj : j < bs.length)
    (hn : a + bs.length ≤ n) : (memWrite v a bs)[a + j]? = bs[j]? := by
  rw [Vector.getElem?_eq_getElem (by omega), memWrite_getElem, if_pos (by omega), Nat.add_sub_cancel_left,
    List.getElem?_eq_getElem hj]
  rfl

theorem memByte_eq {n : Nat} (v : Vector Byte n) (k : Nat) (h : k < n) : memByte v k = v[k] := by
  simp [memByte, h]

/-! ### Bytes of values -/

@[simp] theorem leBytes_length {n : Nat} (w : Nat) (v : BitVec n) : (leBytes w v).length = w := by simp [leBytes]

theorem leBytes_getElem? {n : Nat} (w i : Nat) (v : BitVec n) (h : i < w) : (leBytes w v)[i]? = some (leByte v i) := by
  simp [leBytes, h]

/-- The four bytes of a 32-bit value, as the wire has them. -/
theorem leBytes_four (v : Word32) : leBytes 4 v = wireWord v := by
  have h (i : Nat) : leByte v i = v.extractLsb' (8 * i) 8 := by
    ext j hj
    simp [leByte]
  simp [leBytes, List.range_succ, h, wireWord]

@[simp] theorem wireWord_length (v : Word32) : (wireWord v).length = 4 := rfl

@[simp] theorem wireHeader_length (ts : Word32) (l : Byte) (id : Word32) : (wireHeader ts l id).length = 9 := rfl

theorem elementBytes_length (w : Nat) (vals : List Elem) : (elementBytes w vals).length = vals.length * w := by
  induction vals with
  | nil => simp [elementBytes]
  | cons v vs ih =>
    simp only [elementBytes, List.flatMap_cons, List.length_append, leBytes_length, List.length_cons] at ih ⊢
    rw [ih, Nat.succ_mul, Nat.add_comm]

/-- Byte `i` of element `e` stands at `e*w + i`. -/
theorem elementBytes_getElem? (w e i : Nat) (vals : List Elem) (v : Elem) (hv : vals[e]? = some v) (hi : i < w) :
    (elementBytes w vals)[e * w + i]? = some (leByte v i) := by
  induction vals generalizing e with
  | nil => simp at hv
  | cons x vs ih =>
    cases e with
    | zero =>
      obtain rfl : x = v := by simpa using hv
      simp only [elementBytes, List.flatMap_cons]
      rw [List.getElem?_append_left (by simpa using hi)]
      simpa using leBytes_getElem? w i x hi
    | succ e =>
      have hx : (e + 1) * w + i = w + (e * w + i) := by ring
      simp only [elementBytes, List.flatMap_cons] at ih ⊢
      rw [hx, List.getElem?_append_right (by simp), leBytes_length, Nat.add_sub_cancel_left]
      exact ih e (by simpa using hv)

/-- One fold, bit by bit: the old value moves down one byte, the new byte stands on top (R68). -/
theorem fold_getLsbD (acc : Word32) (b : Byte) (i : Nat) :
    (fold acc b).getLsbD i = if i < 24 then acc.getLsbD (i + 8) else b.getLsbD (i - 24) := by
  have hb (j : Nat) (h : 8 ≤ j) : b.getLsbD j = false := BitVec.getLsbD_of_ge b j h
  have ha (j : Nat) (h : 32 ≤ j) : acc.getLsbD j = false := BitVec.getLsbD_of_ge acc j h
  simp only [fold, BitVec.getLsbD_or, BitVec.getLsbD_ushiftRight, BitVec.getLsbD_shiftLeft, BitVec.getLsbD_setWidth]
  rw [Nat.add_comm 8 i]
  by_cases h : i < 24
  · simp [h]
  · by_cases h' : i < 32
    · have : i - 24 < 32 := by omega
      simp [h, h', ha (i + 8) (by omega), this]
    · simp [h, h', ha (i + 8) (by omega), hb (i - 24) (by omega)]

/-- Four folds give the value of the four bytes, whatever the accumulator held (R68). -/
theorem fold_wireWord (acc v : Word32) : (wireWord v).foldl fold acc = v := by
  refine BitVec.eq_of_getLsbD_eq fun i hi => ?_
  simp only [wireWord, List.foldl_cons, List.foldl_nil, fold_getLsbD, BitVec.getLsbD_extractLsb']
  interval_cases i <;> simp

/-! ### Slots -/

/-- A slot that exists, in the two spellings. -/
theorem slot_eq_some {s : State} {m : Nat} {sl : Slot} : s.slot m = some sl ↔ s.slots[m]? = some sl := Iff.rfl

theorem slot_lt {s : State} {m : Nat} {sl : Slot} (h : s.slots[m]? = some sl) : m < s.slots.length :=
  (List.getElem?_eq_some_iff.1 h).1

@[simp] theorem slot_setSlot_self {s : State} {m : Nat} (sl : Slot) (h : m < s.slots.length) :
    (s.setSlot m sl).slot m = some sl := by simp [State.slot, h]

theorem slots_setSlot_other {s : State} {m j : Nat} (sl : Slot) (h : j ≠ m) :
    (s.setSlot m sl).slots[j]? = s.slots[j]? := by simp [List.getElem?_set_ne h.symm]

@[simp] theorem setSlot_setSlot (s : State) (m : Nat) (a b : Slot) : (s.setSlot m a).setSlot m b = s.setSlot m b := by
  simp [State.setSlot]

/-! ### The transmit stream -/

/-- Transmitting appends the bytes read from the scratch buffer, in order, and changes nothing else (R109). -/
theorem foldl_txWrite (bs : List Byte) (s : State) : bs.foldl State.txWrite s = { s with txq := s.txq ++ bs } := by
  induction bs generalizing s with
  | nil => simp
  | cons b bs ih => simp [ih, State.txWrite]

/-! ### The environment meanwhile -/

theorem arrivals_append (a b : List Move) : arrivals (a ++ b) = arrivals a ++ arrivals b := by
  induction a with
  | nil => rfl
  | cons x a ih => cases x <;> simp [arrivals, ih]

theorem elapsed_append (a b : List Move) : elapsed (a ++ b) = elapsed a + elapsed b := by
  induction a with
  | nil => simp [elapsed]
  | cons x a ih => cases x <;> simp [elapsed, ih, BitVec.add_assoc]

/-- A state after moves `ran` of the schedule, with `rem` still to come and `q` in `RXQ`. -/
def State.afterMoves (s : State) (ran rem : List Move) (q : List Byte) : State :=
  { s with rxq := q, clk := s.clk + elapsed ran, env := rem }

theorem afterMoves_nil (s : State) : s.afterMoves [] s.env s.rxq = s := by
  simp [State.afterMoves, elapsed]

/-! ### Several folds -/

/-- The bits after at most four folds (R68): the bytes received at the top, the old value moved down below them. -/
theorem foldl_fold_getLsbD (acc : Word32) (bytes : List Byte) (h : bytes.length ≤ 4) (i : Nat) :
    (bytes.foldl fold acc).getLsbD i =
      if i < 32 - 8 * bytes.length then acc.getLsbD (i + 8 * bytes.length)
      else ((bytes[(i - (32 - 8 * bytes.length)) / 8]?).getD 0).getLsbD ((i - (32 - 8 * bytes.length)) % 8) := by
  induction bytes generalizing acc i with
  | nil => simpa using fun h => BitVec.lt_of_getLsbD h
  | cons b bs ih =>
    simp only [List.length_cons] at h
    rw [List.foldl_cons, ih _ (by omega)]
    simp only [List.length_cons, fold_getLsbD]
    by_cases h1 : i < 32 - 8 * (bs.length + 1)
    · rw [if_pos (by omega), if_pos h1, if_pos (by omega)]
      congr 1
    · rw [if_neg h1]
      by_cases h2 : i < 32 - 8 * bs.length
      · rw [if_pos h2, if_neg (by omega), show (i - (32 - 8 * (bs.length + 1))) / 8 = 0 by omega]
        simp
        congr 1
        omega
      · rw [if_neg h2, show (i - (32 - 8 * (bs.length + 1))) / 8 = (i - (32 - 8 * bs.length)) / 8 + 1 by omega,
          List.getElem?_cons_succ]
        congr 1
        omega

end Sys2Proof.Machine
end

