-- ==== Sys2Proof/Laws/Message.lean ====
section
/-! SUPPORT. What the message slot operations can answer, said once. -/

namespace Sys2Proof.Machine

/-- Everything `MSG.INIT` can do. -/
theorem execMsgInit_cases (m : Nat) (id : Word32) (len : Byte) (mode : CrcMode) (s : State) :
    ((8 < len ∨ s.slots.length ≤ m) ∧ execMsgInit m id len mode s = .next s.reject) ∨
    (len ≤ 8 ∧ m < s.slots.length ∧ execMsgInit m id len mode s = .next (s.setSlot m (constructSlot id len mode)).ok) := by
  unfold execMsgInit State.slot
  cases hs : s.slots[m]? with
  | none => exact .inl ⟨.inr (List.getElem?_eq_none_iff.1 hs), rfl⟩
  | some sl =>
    by_cases h : 8 < len
    · exact .inl ⟨.inl h, if_pos h⟩
    · exact .inr ⟨BitVec.not_lt.1 h, slot_lt hs, if_neg h⟩

/-- The capacity in the words of R92. -/
theorem packCapacity_eq (c : CrcMode) : packCapacity c = if c = .crc8 then 6 else 8 := by
  cases c with
  | none => rfl
  | crc8 => rfl

theorem widthLegal_iff (w : Nat) : widthLegal w = true ↔ w ∈ Config.packWidths := by simp [widthLegal]

/-- A pack that fits (R92, R95). -/
theorem packBytes_fits {s : State} {m : Nat} {sl : Slot} {bs : List Byte} (hs : s.slots[m]? = some sl)
    (h : bs.length ≤ packCapacity sl.crcMode) :
    packBytes m bs s = .next { s with
      slots := s.slots.set m { sl with payload := memWrite sl.payload 0 bs }
      responses := s.responses ++ [⟨.ok, none⟩] } := by
  simp only [packBytes, State.slot, hs]
  rw [if_neg (Nat.not_lt.2 h)]
  rfl

/-- A pack that does not fit, or has no slot. -/
theorem packBytes_rejected {s : State} {m : Nat} {bs : List Byte}
    (h : s.slots[m]? = none ∨ ∃ sl, s.slots[m]? = some sl ∧ packCapacity sl.crcMode < bs.length) :
    packBytes m bs s = .next s.reject := by
  unfold packBytes State.slot
  rcases h with h | ⟨sl, h, hl⟩
  · rw [h]
  · rw [h]; exact if_pos hl

/-- Everything a pack operation can do. -/
theorem packBytes_cases (m : Nat) (bs : List Byte) (s : State) :
    packBytes m bs s = .next s.reject ∨ ∃ sl, s.slots[m]? = some sl ∧
      packBytes m bs s = .next (s.setSlot m { sl with payload := memWrite sl.payload 0 bs }).ok := by
  unfold packBytes State.slot
  cases hs : s.slots[m]? with
  | none => exact .inl rfl
  | some sl =>
    by_cases h : packCapacity sl.crcMode < bs.length
    · exact .inl (if_pos h)
    · exact .inr ⟨sl, rfl, if_neg h⟩

theorem exec_msgPackv {w m : Nat} {vals : List Elem} {s : State} (h : w ∈ Config.packWidths) :
    exec (.msgPackv m w vals) s = packBytes m (elementBytes w vals) s := if_pos ((widthLegal_iff w).2 h)

/-- Both pack operations are one shared operation. -/
theorem exec_packs {m : Nat} {bs : List Byte} {i : Instr} {s : State} (h : Packs m bs i) :
    exec i s = packBytes m bs s := by
  rcases h with rfl | ⟨w, vals, hw, rfl, rfl⟩
  · rfl
  · exact exec_msgPackv hw

end Sys2Proof.Machine
end

