-- ==== Sys2Proof/Laws/PerInstr.lean ====
section
/-! SUPPORT. Statements for all operations, one lemma per constructor. -/

namespace Sys2Proof.Laws.TableCode

/-- The encoder gives every operation one of the eight codes of the opcode table (`30_encoding.md` rule R72). -/
def Statement (i : Instr) : Prop := (encode i).op < 8

theorem crc8Compute (bytes : List Byte) : Statement (.crc8Compute bytes) :=
  (by decide : (0x00 : Byte) < 8)
theorem msgInit (m : Nat) (id : Word32) (len : Byte) (mode : CrcMode) : Statement (.msgInit m id len mode) :=
  (by decide : (0x01 : Byte) < 8)
theorem msgPackv (m w : Nat) (vals : List Elem) : Statement (.msgPackv m w vals) :=
  (by decide : (0x02 : Byte) < 8)
theorem msgPackt (m : Nat) (text : List Byte) : Statement (.msgPackt m text) :=
  (by decide : (0x03 : Byte) < 8)
theorem xcvBegin (cfg : TransportConfig) : Statement (.xcvBegin cfg) :=
  (by decide : (0x04 : Byte) < 8)
theorem xcvSend (m : Nat) (ts : Word32) : Statement (.xcvSend m ts) :=
  (by decide : (0x05 : Byte) < 8)
theorem xcvRecv (m : Nat) (timeoutMs : Word32) : Statement (.xcvRecv m timeoutMs) :=
  (by decide : (0x06 : Byte) < 8)
theorem xcvGetfault : Statement .xcvGetfault :=
  (by decide : (0x07 : Byte) < 8)

end Sys2Proof.Laws.TableCode
end

