-- ==== Sys2Proof/Laws/Receive.lean ====
section
/-! SUPPORT. What the receive parser can do, said once: one window byte, the wait for a byte, a run of window bytes, the end
of a frame. -/

namespace Sys2Proof.Machine

/-! ### One window byte -/

theorem windowByte_ts {i : Nat} (h : i < 4) (b : Byte) (sl : Slot) :
    windowByte i b sl = some ({ sl with ts := fold sl.ts b }, false) := if_pos h

theorem windowByte_len (b : Byte) (sl : Slot) : windowByte 4 b sl = some ({ sl with len := clampLen b }, false) := rfl

theorem windowByte_id {i : Nat} (h4 : 4 < i) (h9 : i < 9) (b : Byte) (sl : Slot) :
    windowByte i b sl = some ({ sl with id := fold sl.id b }, false) := by
  unfold windowByte
  rw [if_neg (by omega), if_neg (by omega), if_pos h9]

theorem windowByte_payload {i : Nat} (h9 : 9 ≤ i) (h17 : i < 17) (b : Byte) (sl : Slot) (h : i < 9 + sl.len.toNat) :
    windowByte i b sl = some ({ sl with payload := memWrite sl.payload (i - 9) [b] }, false) := by
  unfold windowByte
  rw [if_neg (by omega), if_neg (by omega), if_neg (by omega), if_pos h,
    if_pos (show i - 9 < 8 by omega)]

theorem windowByte_search {i : Nat} (b : Byte) (sl : Slot) (h : 9 + sl.len.toNat ≤ i) :
    windowByte i b sl = some (sl, decide (b = Config.endDelim)) := by
  unfold windowByte
  rw [if_neg (by omega), if_neg (by omega), if_neg (by omega), if_neg (by omega)]

/-- What a window byte can do to a slot: one field, never `CRCMODE`, `CTR` or `CRC`. -/
theorem windowByte_fields {i : Nat} {b : Byte} {sl sl' : Slot} {found : Bool}
    (h : windowByte i b sl = some (sl', found)) :
    (sl' = { sl with ts := sl'.ts, len := sl'.len, id := sl'.id, payload := sl'.payload }) ∧
    (sl.len ≤ 8 → sl'.len ≤ 8) := by
  have clamp (b : Byte) : clampLen b ≤ 8 := by
    unfold clampLen; split
    · assumption
    · exact (by decide : (8 : Byte) ≤ 8)
  unfold windowByte at h
  split_ifs at h <;> cases h <;> exact ⟨rfl, fun hl => by first | exact hl | exact clamp b⟩

theorem clampLen_toNat (b : Byte) : (clampLen b).toNat = min b.toNat 8 := by
  unfold clampLen
  split
  · next h => exact (Nat.min_eq_left h).symm
  · next h =>
    have : ¬ b.toNat ≤ 8 := h
    rw [show (8 : Byte).toNat = 8 from rfl]
    exact (Nat.min_eq_right (by omega)).symm

theorem clampLen_eq {b : Byte} {n : Nat} (h : n = min b.toNat 8) : clampLen b = BitVec.ofNat 8 n := by
  rw [h, ← clampLen_toNat, BitVec.ofNat_toNat, BitVec.setWidth_eq]

/-- No reachable slot makes the parser form an index outside the payload (R41). -/
theorem windowByte_isSome {i : Nat} (b : Byte) {sl : Slot} (hi : i ≤ 17) (hl : sl.len ≤ 8) :
    ∃ r, windowByte i b sl = some r := by
  have : sl.len.toNat ≤ 8 := hl
  by_cases h0 : i < 4
  · exact ⟨_, windowByte_ts h0 b sl⟩
  · by_cases h1 : i = 4
    · exact ⟨_, h1 ▸ windowByte_len b sl⟩
    · by_cases h2 : i < 9
      · exact ⟨_, windowByte_id (by omega) h2 b sl⟩
      · by_cases h3 : i < 9 + sl.len.toNat
        · exact ⟨_, windowByte_payload (by omega) (by omega) b sl h3⟩
        · exact ⟨_, windowByte_search b sl (by omega)⟩

/-! ### A run of window bytes -/

/-- Window bytes from index `i` on, none of which is the end delimiter. -/
def absorb (i : Nat) : List Byte → Slot → Option Slot
  | [], sl => some sl
  | b :: ws, sl =>
    match windowByte i b sl with
    | some (sl', false) => absorb (i + 1) ws sl'
    | _ => none

theorem absorb_append (i : Nat) (xs ys : List Byte) (sl : Slot) :
    absorb i (xs ++ ys) sl = (absorb i xs sl).bind (absorb (i + xs.length) ys) := by
  induction xs generalizing i sl with
  | nil => rfl
  | cons x xs ih =>
    simp only [List.cons_append, absorb, List.length_cons]
    split
    · rw [ih, Nat.add_assoc, Nat.add_comm 1]
    · rfl

/-- The header rebuilds timestamp, length and identifier (R120 to R122). -/
theorem absorb_header (ts : Word32) (l : Byte) (id : Word32) (sl : Slot) :
    absorb 0 (wireHeader ts l id) sl = some { sl with ts := ts, len := clampLen l, id := id } := by
  have hts := fold_wireWord sl.ts ts
  have hid := fold_wireWord sl.id id
  simp only [wireWord, List.foldl_cons, List.foldl_nil] at hts hid
  simp [wireHeader, wireWord, absorb, windowByte, hts, hid]

/-- Payload bytes are stored in order (R123). -/
theorem absorb_payload (pl : List Byte) (k : Nat) (sl : Slot) (h : k + pl.length ≤ sl.len.toNat) (h8 : sl.len.toNat ≤ 8) :
    absorb (9 + k) pl sl = some { sl with payload := memWrite sl.payload k pl } := by
  induction pl generalizing k sl with
  | nil => rfl
  | cons b pl ih =>
    simp only [List.length_cons] at h
    simp only [absorb]
    rw [windowByte_payload (by omega) (by omega) b sl (by omega)]
    simp only [Nat.add_assoc, Nat.add_sub_cancel_left]
    exact ih (k + 1) { sl with payload := memWrite sl.payload k [b] } (by simpa using by omega) h8

/-- Bytes after the payload that are not the end delimiter are dropped (R124). -/
theorem absorb_gap (gap : List Byte) (i : Nat) (sl : Slot) (h : 9 + sl.len.toNat ≤ i) (hg : Config.endDelim ∉ gap) :
    absorb i gap sl = some sl := by
  induction gap generalizing i with
  | nil => rfl
  | cons b gap ih =>
    simp only [List.mem_cons, not_or] at hg
    simp only [absorb]
    rw [windowByte_search b sl h, decide_eq_false (Ne.symm hg.1)]
    exact ih (i + 1) (by omega) hg.2

/-- Header, payload and dropped bytes together (R120 to R124). -/
theorem absorb_frame (ts : Word32) (l : Byte) (id : Word32) (pl gap : List Byte) (sl : Slot)
    (hp : pl.length = min l.toNat 8) (hg : Config.endDelim ∉ gap) :
    absorb 0 (wireHeader ts l id ++ pl ++ gap) sl =
      some { sl with ts := ts, len := clampLen l, id := id, payload := memWrite sl.payload 0 pl } := by
  have hc := clampLen_toNat l
  rw [absorb_append, absorb_append, absorb_header]
  simp only [Option.bind_some, wireHeader_length, List.length_append, Nat.zero_add]
  rw [show (9 : Nat) = 9 + 0 from rfl, absorb_payload pl 0 _ (by simp; omega) (by simp; omega)]
  simp only [Option.bind_some]
  exact absorb_gap gap _ _ (by simp; omega) hg

/-! ### The environment meanwhile -/

theorem poll_cons {s : State} {b : Byte} {q : List Byte} (h : s.rxq = b :: q) : poll s = .byte b { s with rxq := q } := by
  unfold poll; rw [h]

theorem poll_nil {s : State} (h : s.rxq = []) : poll s = if budgetSpent s then .expired s else .waiting s := by
  unfold poll; rw [h]

/-- The budget test after moves of the environment (R119). -/
@[simp] theorem budgetSpent_afterMoves (s : State) (ran rem : List Move) (q : List Byte) :
    budgetSpent (s.afterMoves ran rem q) = decide (s.rx.tmo ≤ s.clk + elapsed ran - s.rx.t0) := rfl

/-- Everything the wait along schedule `e` can end in (R118, R119, R163). -/
def WaitSpec (e : List Move) (s : State) : Prop :=
    (∃ ran rem b q, e = ran ++ rem ∧ Move.reset ∉ ran ∧ s.rxq ++ arrivals ran = b :: q ∧
      awaitByte e s = .byte b (s.afterMoves ran rem q)) ∨
    (∃ ran rem, e = ran ++ rem ∧ Move.reset ∉ ran ∧ s.rxq ++ arrivals ran = [] ∧
      budgetSpent (s.afterMoves ran rem []) = true ∧ awaitByte e s = .expired (s.afterMoves ran rem [])) ∨
    (∃ ran rem, e = ran ++ .reset :: rem ∧ awaitByte e s =
      .cutOff (s.afterMoves ran rem (s.rxq ++ arrivals ran)).blockReset) ∨
    (Move.reset ∉ e ∧ s.rxq ++ arrivals e = [] ∧ budgetSpent (s.afterMoves e [] []) = false ∧
      awaitByte e s = .waiting (s.afterMoves e [] []))

theorem awaitByte_cases (e : List Move) (s : State) : WaitSpec e s := by
  induction e generalizing s with
  | nil =>
    cases hq : s.rxq with
    | cons b q =>
      exact .inl ⟨[], [], b, q, rfl, by simp, by simp [arrivals, hq], by
        rw [awaitByte, poll_cons (s := { s with env := [] }) hq]; simp [State.afterMoves, elapsed]⟩
    | nil =>
      have hs : s.afterMoves [] [] [] = { s with env := [] } := by
        simp [State.afterMoves, elapsed, ← hq]
      have hp : awaitByte [] s = if budgetSpent s then .expired { s with env := [] } else .waiting { s with env := [] } :=
        poll_nil (s := { s with env := [] }) hq
      by_cases hb : budgetSpent s = true
      · exact .inr (.inl ⟨[], [], rfl, by simp, by simp [arrivals, hq], by rw [hs]; exact hb, by rw [hp, if_pos hb, hs]⟩)
      · exact .inr (.inr (.inr ⟨by simp, by simp [arrivals, hq], by rw [hs]; exact Bool.eq_false_iff.2 hb, by
          rw [hp, if_neg hb, hs]⟩))
  | cons x e ih =>
    have lift (s' : State) (hx : Move.reset ≠ x) (hq : s'.rxq = s.rxq ++ arrivals [x])
        (hs : ∀ ran rem q, s'.afterMoves ran rem q = s.afterMoves (x :: ran) rem q)
        (ha : awaitByte (x :: e) s = awaitByte e s') : WaitSpec (x :: e) s := by
      have hr (ran : List Move) : s'.rxq ++ arrivals ran = s.rxq ++ arrivals (x :: ran) := by
        rw [hq, List.append_assoc, ← arrivals_append]; rfl
      have hm (ran : List Move) (h : Move.reset ∉ ran) : Move.reset ∉ x :: ran := by simp [hx, h]
      have := ih s'
      simp only [WaitSpec, hr, hs, ← ha] at this
      exact this.imp
        (fun ⟨ran, rem, b, q, he, hn, h⟩ => ⟨x :: ran, rem, b, q, by rw [he]; rfl, hm _ hn, h⟩)
        (.imp (fun ⟨ran, rem, he, hn, h⟩ => ⟨x :: ran, rem, by rw [he]; rfl, hm _ hn, h⟩)
          (.imp (fun ⟨ran, rem, he, h⟩ => ⟨x :: ran, rem, by rw [he]; rfl, h⟩)
            (fun ⟨hn, h⟩ => ⟨hm _ hn, h⟩)))
    cases x with
    | arrive b =>
      exact lift (s.arrive b) (by simp) (by simp [arrivals]) (fun _ _ _ => rfl) rfl
    | advance ms =>
      exact lift (s.advance ms) (by simp) (by simp [arrivals])
        (fun ran rem q => by simp [State.afterMoves, elapsed, State.advance, BitVec.add_assoc]) rfl
    | reset =>
      exact .inr (.inr (.inl ⟨[], e, rfl, by simp [awaitByte, State.afterMoves, elapsed, arrivals]⟩))
    | block =>
      cases hq : s.rxq with
      | cons b q =>
        exact .inl ⟨[.block], e, b, q, rfl, by simp, by simp [arrivals, hq], by
          rw [awaitByte, poll_cons (s := { s with env := e }) hq]; simp [State.afterMoves, elapsed]⟩
      | nil =>
        have hs : s.afterMoves [.block] e [] = { s with env := e } := by simp [State.afterMoves, elapsed, ← hq]
        have hp : poll { s with env := e } = if budgetSpent s then .expired { s with env := e } else
          .waiting { s with env := e } := poll_nil (s := { s with env := e }) hq
        by_cases hb : budgetSpent s = true
        · exact .inr (.inl ⟨[.block], e, rfl, by simp, by simp [arrivals, hq], by rw [hs]; exact hb, by
            rw [awaitByte, hp, if_pos hb, hs]⟩)
        · refine lift s (by simp) (by simp [arrivals]) (fun _ _ _ => by simp [State.afterMoves, elapsed]) ?_
          rw [awaitByte, hp, if_neg hb]

/-- A byte that is there is taken, whatever the clock says (R118, R149). -/
theorem awaitByte_available {e : List Move} {s : State} {b : Byte} {q : List Byte} (hq : s.rxq = b :: q)
    (hr : Move.reset ∉ e) :
    ∃ ran rem, e = ran ++ rem ∧ awaitByte e s = .byte b (s.afterMoves ran rem (q ++ arrivals ran)) := by
  rcases awaitByte_cases e s with ⟨ran, rem, b', q', he, -, h1, h2⟩ | ⟨ran, rem, -, -, h1, -⟩ | ⟨ran, rem, he, -⟩ |
    ⟨-, h1, -⟩
  · rw [hq, List.cons_append, List.cons.injEq] at h1
    obtain ⟨rfl, rfl⟩ := h1
    exact ⟨ran, rem, he, h2⟩
  · simp [hq] at h1
  · simp [he] at hr
  · simp [hq] at h1

/-! ### The end of a frame -/

theorem CrcMode.eq_crc8 {c : CrcMode} (h : c ≠ .none) : c = .crc8 := by
  cases c with
  | none => exact absurd rfl h
  | crc8 => rfl

theorem setSlot_same {s : State} {m : Nat} {sl : Slot} (h : s.slots[m]? = some sl) : s.setSlot m sl = s := by
  obtain ⟨hm, hh⟩ := List.getElem?_eq_some_iff.1 h
  simp [State.setSlot, ← hh]

/-- Steps 6 and 7 in `None` mode (R126, R130). -/
theorem verifyFrame_none (p : Config.Params) {s : State} {m : Nat} {sl : Slot} (hs : s.slots[m]? = some sl)
    (hm : sl.crcMode = .none) : verifyFrame p m s = .next (s.finish .none) := by
  simp only [verifyFrame, State.slot, hs, hm]

/-- Steps 6 and 7 in `CRC8` mode without room for a checksum (R126). -/
theorem verifyFrame_short (p : Config.Params) {s : State} {m : Nat} {sl : Slot} (hs : s.slots[m]? = some sl)
    (hm : sl.crcMode = .crc8) (hl : sl.len.toNat < 2) : verifyFrame p m s = .next (s.finish .crcMismatch) := by
  simp only [verifyFrame, State.slot, hs, hm, if_pos hl]

/-- Steps 6 and 7 in `CRC8` mode (R127 to R130). -/
theorem verifyFrame_crc8 (p : Config.Params) {s : State} {m : Nat} {sl : Slot} (hs : s.slots[m]? = some sl)
    (hm : sl.crcMode = .crc8) (h2 : 2 ≤ sl.len.toNat) (h8 : sl.len.toNat ≤ 8) :
    verifyFrame p m s = .next ((s.setSlot m { sl with
        ctr := memByte sl.payload (sl.len.toNat - 2)
        crc := crc8 p.table (memRead sl.payload 0 (coveredBytes p sl.len.toNat)) }).finish
      (if crc8 p.table (memRead sl.payload 0 (coveredBytes p sl.len.toNat)) = memByte sl.payload (sl.len.toNat - 1)
        then .none else .crcMismatch)) := by
  simp only [verifyFrame, State.slot, hs, hm, if_neg (Nat.not_lt.2 h2), if_neg (Nat.not_lt.2 h8)]
  split <;> rfl

/-- Everything the end of a frame can do to its slot. -/
theorem verifyFrame_spec (p : Config.Params) {s : State} {m : Nat} {sl : Slot} (hs : s.slots[m]? = some sl)
    (h8 : sl.len ≤ 8) :
    ∃ f sl', verifyFrame p m s = .next ((s.setSlot m sl').finish f) ∧ (f = .none ∨ f = .crcMismatch) ∧
      sl' = { sl with ctr := sl'.ctr, crc := sl'.crc } ∧ (sl.crcMode = .none → sl' = sl) := by
  by_cases hm : sl.crcMode = .none
  · exact ⟨_, sl, by rw [verifyFrame_none p hs hm, setSlot_same hs], .inl rfl, rfl, fun _ => rfl⟩
  · replace hm := CrcMode.eq_crc8 hm
    by_cases h2 : sl.len.toNat < 2
    · exact ⟨_, sl, by rw [verifyFrame_short p hs hm h2, setSlot_same hs], .inr rfl, rfl, fun _ => rfl⟩
    · refine ⟨_, _, verifyFrame_crc8 p hs hm (by omega) h8, ?_, rfl, by simp [hm]⟩
      split
      · exact .inl rfl
      · exact .inr rfl

/-! ### The window -/

/-- The parser before the wait of window byte `i`: index and start of the wait. -/
def State.startWait (s : State) (i : Nat) : State := { s with rx := { s.rx with i := BitVec.ofNat 5 i, t0 := s.clk } }

/-- One pass of the window loop, by how its wait ends. -/
theorem receiveWindow_succ (p : Config.Params) (m n : Nat) (s : State) :
    receiveWindow p m (n + 1) s =
      match awaitByte s.env (s.startWait (18 - (n + 1))) with
      | .waiting s' => .next s'
      | .cutOff s' => .next s'
      | .expired s' => .next (s'.finish .timeout)
      | .byte b s' =>
        match s'.slot m with
        | none => .fault .receiveSlot
        | some sl =>
          match windowByte (18 - (n + 1)) b sl with
          | none => .fault .payloadIndex
          | some (sl', false) => receiveWindow p m n (s'.setSlot m sl')
          | some (sl', true) => verifyFrame p m { s'.setSlot m sl' with rx := { s'.rx with found := true } } := rfl

/-- A pass that takes a window byte which does not end the window. -/
theorem receiveWindow_absorb_one (p : Config.Params) {m n : Nat} {s : State} {b : Byte} {q : List Byte} {sl sl' : Slot}
    (hs : s.slots[m]? = some sl) (hq : s.rxq = b :: q) (hr : Move.reset ∉ s.env)
    (hw : windowByte (18 - (n + 1)) b sl = some (sl', false)) :
    ∃ ran rem, s.env = ran ++ rem ∧ receiveWindow p m (n + 1) s = receiveWindow p m n
      (((s.startWait (18 - (n + 1))).afterMoves ran rem (q ++ arrivals ran)).setSlot m sl') := by
  obtain ⟨ran, rem, he, ha⟩ := awaitByte_available (s := s.startWait (18 - (n + 1))) hq hr
  refine ⟨ran, rem, he, ?_⟩
  have hslot : ((s.startWait (18 - (n + 1))).afterMoves ran rem (q ++ arrivals ran)).slot m = some sl := hs
  rw [receiveWindow_succ, ha]
  simp only [hslot, hw]

/-- A run of window bytes that are all there, none of which ends the window: they are consumed and stored, whatever the
environment does meanwhile. -/
theorem receiveWindow_absorb (p : Config.Params) (m : Nat) (ws rest : List Byte) (n : Nat) (s : State) (sl sl' : Slot)
    (hs : s.slots[m]? = some sl) (hn : ws.length + n ≤ 18) (hq : s.rxq = ws ++ rest) (hr : Move.reset ∉ s.env)
    (ha : absorb (18 - (ws.length + n)) ws sl = some sl') :
    ∃ s', receiveWindow p m (ws.length + n) s = receiveWindow p m n s' ∧ s.EnvRan s' rest ∧ Move.reset ∉ s'.env ∧
      s'.slots = s.slots.set m sl' ∧
      s' = { s with slots := s'.slots, rx := s'.rx, rxq := s'.rxq, clk := s'.clk, env := s'.env } ∧
      s'.rx = { s.rx with i := s'.rx.i, t0 := s'.rx.t0 } := by
  induction ws generalizing s sl rest with
  | nil =>
    obtain rfl : sl = sl' := by simpa [absorb] using ha
    refine ⟨s, by simp, ⟨[], by simp, by simp [hq, arrivals], by simp [elapsed]⟩, hr, ?_, rfl, rfl⟩
    obtain ⟨h, hh⟩ := List.getElem?_eq_some_iff.1 hs
    rw [← hh, List.set_getElem_self]
  | cons b ws ih =>
    simp only [List.length_cons, Nat.add_right_comm _ 1] at hn ha ⊢
    simp only [absorb] at ha
    split at ha
    · next sl1 hw =>
      obtain ⟨ran, rem, he, h1⟩ := receiveWindow_absorb_one p hs hq hr hw
      rw [he, List.mem_append, not_or] at hr
      obtain ⟨s', h2, ⟨ran', h3, h4, h5⟩, h6, h7, h8, h9⟩ := ih (rest ++ arrivals ran)
        (((s.startWait (18 - (ws.length + n + 1))).afterMoves ran rem (ws ++ rest ++ arrivals ran)).setSlot m sl1) sl1
        (by simp [State.startWait, State.afterMoves, slot_lt hs]) (by omega)
        (by simp [State.afterMoves]) hr.2 (by rw [← ha]; congr 1; omega)
      refine ⟨s', h1.trans h2, ⟨ran ++ ran', ?_, ?_, ?_⟩, h6, ?_, ?_, ?_⟩
      · rw [he, List.append_assoc, ← h3]; rfl
      · rw [h4, arrivals_append, List.append_assoc]
      · rw [h5, elapsed_append, ← BitVec.add_assoc]; rfl
      · rw [h7]; simp [State.startWait, State.afterMoves]
      · rw [h8]; rfl
      · rw [h9]; rfl
    · cases ha

/-- The last byte of the window: the end delimiter is there (R124). -/
theorem receiveWindow_found (p : Config.Params) {m n : Nat} {s : State} {q : List Byte} {sl : Slot}
    (hs : s.slots[m]? = some sl) (hq : s.rxq = Config.endDelim :: q) (hr : Move.reset ∉ s.env)
    (hi : 9 + sl.len.toNat ≤ 18 - (n + 1)) :
    ∃ s', receiveWindow p m (n + 1) s = verifyFrame p m s' ∧ s.EnvRan s' q ∧ s'.slots = s.slots ∧
      s' = { s with rx := s'.rx, rxq := s'.rxq, clk := s'.clk, env := s'.env } := by
  obtain ⟨ran, rem, he, ha⟩ := awaitByte_available (s := s.startWait (18 - (n + 1))) hq hr
  have hslot : ((s.startWait (18 - (n + 1))).afterMoves ran rem (q ++ arrivals ran)).slot m = some sl := hs
  refine ⟨{ ((s.startWait (18 - (n + 1))).afterMoves ran rem (q ++ arrivals ran)) with
    rx := { s.rx with i := BitVec.ofNat 5 (18 - (n + 1)), t0 := s.clk, found := true } }, ?_, ⟨ran, he, rfl, rfl⟩, rfl, rfl⟩
  rw [receiveWindow_succ, ha]
  simp only [hslot, windowByte_search _ sl hi, decide_true]
  rw [setSlot_same hslot]
  rfl

/-- What a receive has done when its step ends without a reset: `k` bytes consumed, one slot written. -/
structure Received (m k : Nat) (s t : State) : Prop where
  env : ∃ ran, s.env = ran ++ t.env ∧ k ≤ (s.rxq ++ arrivals ran).length ∧ t.rxq = (s.rxq ++ arrivals ran).drop k ∧
    t.clk = s.clk + elapsed ran
  slot : ∃ sl sl', s.slots[m]? = some sl ∧ t.slots = s.slots.set m sl' ∧ sl'.crcMode = sl.crcMode ∧
    (sl.crcMode = .none → sl'.ctr = sl.ctr ∧ sl'.crc = sl.crc) ∧ (sl.len ≤ 8 → sl'.len ≤ 8)
  rest : t = { s with
    slots := t.slots, fault := t.fault, rx := t.rx, rxq := t.rxq, clk := t.clk, responses := t.responses, env := t.env }

/-- The receive has ended with fault `f` (R132). -/
def Ended (f : FaultReason) (s t : State) : Prop :=
  t.rx.state = .idle ∧ t.fault = f ∧ t.responses = s.responses ++ [⟨statusOf f, none⟩]

/-- The receive waits, and nothing is scheduled that could end the wait (R155). -/
def Waits (s t : State) : Prop :=
  t.rx = { s.rx with i := t.rx.i, t0 := t.rx.t0 } ∧ t.rx.i ≤ 17 ∧ t.fault = s.fault ∧ t.responses = s.responses ∧
    t.rxq = [] ∧ t.env = [] ∧ budgetSpent t = false

/-- The receive was cut off by a reset (R163). -/
def WasCutOff (s t : State) : Prop :=
  ∃ (ran : List Move) (s0 : State), s.env = ran ++ .reset :: t.env ∧ t = s0.blockReset ∧ s0.slots.length = s.slots.length ∧ s0.txq = s.txq ∧
    s0.begun = s.begun ∧ s0.port = s.port ∧ s0.responses = s.responses

/-- Everything the rest of a receive can answer, when `n` window bytes are still to come. -/
def WindowSpec (p : Config.Params) (m n : Nat) (s : State) : Prop :=
  ∃ t, receiveWindow p m n s = .next t ∧
    ((∃ k, k ≤ n ∧ Received m k s t ∧ ((∃ f, Ended f s t ∧ (f = .timeout → k < n ∧ t.rxq = [])) ∨ k < n ∧ Waits s t)) ∨
      WasCutOff s t)

/-- Consuming one more byte before. -/
theorem Received.cons {m k : Nat} {s s1 t : State} {ran rem : List Move} {b : Byte} {q : List Byte} {sl sl1 : Slot}
    (he : s.env = ran ++ rem) (hq : s.rxq ++ arrivals ran = b :: q) (hs : s.slots[m]? = some sl)
    (h1 : s1.slots = s.slots.set m sl1) (hrx : s1.rxq = q) (hclk : s1.clk = s.clk + elapsed ran) (henv : s1.env = rem)
    (hrest : s1 = { s with slots := s1.slots, rx := s1.rx, rxq := s1.rxq, clk := s1.clk, env := s1.env })
    (hmode : sl1.crcMode = sl.crcMode) (hctr : sl.crcMode = .none → sl1.ctr = sl.ctr ∧ sl1.crc = sl.crc)
    (hlen : sl.len ≤ 8 → sl1.len ≤ 8) (h : Received m k s1 t) : Received m (k + 1) s t := by
  obtain ⟨⟨ran', h2, h3, h4, h5⟩, ⟨sl1', sl', h6, h7, h8, h9, h10⟩, h11⟩ := h
  obtain rfl : sl1 = sl1' := by
    rw [h1, List.getElem?_set_self (slot_lt hs)] at h6
    exact Option.some.inj h6
  have hx : s.rxq ++ arrivals (ran ++ ran') = b :: (s1.rxq ++ arrivals ran') := by
    rw [arrivals_append, ← List.append_assoc, hq, hrx]; rfl
  refine ⟨⟨ran ++ ran', ?_, ?_, ?_, ?_⟩, ⟨sl, sl', hs, ?_, h8.trans hmode, fun hm => ?_, fun hl => h10 (hlen hl)⟩, ?_⟩
  · rw [he, ← henv, h2, List.append_assoc]
  · rw [hx]; simpa using h3
  · rw [hx, List.drop_succ_cons]; exact h4
  · rw [h5, hclk, elapsed_append, BitVec.add_assoc]
  · rw [h7, h1, List.set_set]
  · obtain ⟨ha, hb⟩ := hctr hm
    obtain ⟨hc, hd⟩ := h9 (hmode.trans hm)
    exact ⟨hc.trans ha, hd.trans hb⟩
  · rw [h11, hrest]

theorem received_nil {m : Nat} {s t : State} {sl : Slot} (ran : List Move) (hs : s.slots[m]? = some sl)
    (he : s.env = ran ++ t.env) (hq : t.rxq = s.rxq ++ arrivals ran) (hc : t.clk = s.clk + elapsed ran)
    (ht : t.slots = s.slots)
    (hrest : t = { s with
      slots := t.slots, fault := t.fault, rx := t.rx, rxq := t.rxq, clk := t.clk, responses := t.responses, env := t.env }) :
    Received m 0 s t := by
  obtain ⟨hm, hh⟩ := List.getElem?_eq_some_iff.1 hs
  exact ⟨⟨ran, he, Nat.zero_le _, hq, hc⟩,
    ⟨sl, sl, hs, by rw [ht, ← hh, List.set_getElem_self], rfl, fun _ => ⟨rfl, rfl⟩, id⟩, hrest⟩

/-- The window never stops the machine, and everything it can do. The length of the slot is in range, or the length byte is
still to come. -/
theorem receiveWindow_spec (p : Config.Params) (m n : Nat) (s : State) (sl : Slot) (hn : n ≤ 18)
    (hs : s.slots[m]? = some sl) (hl : sl.len ≤ 8 ∨ 13 < n) : WindowSpec p m n s := by
  induction n generalizing s sl with
  | zero =>
    refine ⟨_, rfl, .inl ⟨0, le_refl _, received_nil [] hs rfl (by simp [arrivals]) (by simp [elapsed]) rfl rfl, .inl
      ⟨.missingEndDelimiter, ⟨rfl, rfl, rfl⟩, by simp⟩⟩⟩
  | succ n ih =>
    unfold WindowSpec
    rw [receiveWindow_succ]
    rcases awaitByte_cases s.env (s.startWait (18 - (n + 1))) with ⟨ran, rem, b, q, he, -, h1, h2⟩ |
      ⟨ran, rem, he, -, h1, -, h2⟩ | ⟨ran, rem, he, h1⟩ | ⟨-, h1, h2, h3⟩
    · rw [h2]
      have hslot : ((s.startWait (18 - (n + 1))).afterMoves ran rem q).slot m = some sl := hs
      simp only [hslot]
      obtain ⟨⟨sl1, found⟩, hw⟩ : ∃ r, windowByte (18 - (n + 1)) b sl = some r := by
        by_cases h4 : 18 - (n + 1) < 4
        · exact ⟨_, windowByte_ts h4 b sl⟩
        · by_cases h4' : 18 - (n + 1) = 4
          · exact ⟨_, h4' ▸ windowByte_len b sl⟩
          · exact windowByte_isSome b (by omega) (hl.resolve_right (by omega))
      obtain ⟨hf, hlen⟩ := windowByte_fields hw
      have hl1 : sl1.len ≤ 8 ∨ 13 < n := by
        rcases hl with hl | hl
        · exact .inl (hlen hl)
        · by_cases h13 : 13 < n
          · exact .inr h13
          · obtain rfl : n = 13 := by omega
            rw [windowByte_len] at hw
            cases hw
            exact .inl (show (clampLen b).toNat ≤ 8 by rw [clampLen_toNat]; omega)
      have hcons (t : State) (k : Nat) (r : Bool) (h : Received m k { ((s.startWait (18 - (n + 1))).afterMoves ran rem
          q).setSlot m sl1 with rx := { s.rx with i := BitVec.ofNat 5 (18 - (n + 1)), t0 := s.clk, found := r } } t) :
          Received m (k + 1) s t :=
        Received.cons (b := b) he h1 hs rfl rfl rfl rfl rfl (by rw [hf]) (fun _ => by rw [hf]; exact ⟨rfl, rfl⟩) hlen h
      rw [hw]
      cases found with
      | false =>
        obtain ⟨t, ht, h⟩ := ih (((s.startWait (18 - (n + 1))).afterMoves ran rem q).setSlot m sl1) sl1 (by omega)
          (slot_setSlot_self sl1 (slot_lt hs)) hl1
        refine ⟨t, ht, ?_⟩
        rcases h with ⟨k, hk, hR, hE⟩ | ⟨ran', s0, h3, h4, h5, h6⟩
        · refine .inl ⟨k + 1, by omega, hcons t k s.rx.found hR, hE.imp ?_ ?_⟩
          · rintro ⟨f, hf, ht⟩
            exact ⟨f, hf, fun h => ⟨by have := (ht h).1; omega, (ht h).2⟩⟩
          · rintro ⟨hk, hW, hrest⟩
            exact ⟨by omega, hW, hrest⟩
        · exact .inr ⟨ran ++ ran', s0, by rw [he, List.append_assoc, ← h3]; rfl, h4, h5.trans (List.length_set ..), h6⟩
      | true =>
        have h8 : sl1.len ≤ 8 := by
          rcases hl1 with h | h
          · exact h
          · rw [windowByte_ts (by omega)] at hw
            cases hw
        obtain ⟨f, sl2, hv, hff, hsl2, hnone⟩ := verifyFrame_spec p (m := m) (sl := sl1)
          (s := { ((s.startWait (18 - (n + 1))).afterMoves ran rem q).setSlot m sl1 with
            rx := { s.rx with i := BitVec.ofNat 5 (18 - (n + 1)), t0 := s.clk, found := true } })
          (slot_setSlot_self sl1 (slot_lt hs)) h8
        refine ⟨_, hv, .inl ⟨1, by omega, hcons _ 0 true ⟨⟨[], rfl, Nat.zero_le _, by simp [arrivals], by simp [elapsed]⟩,
          ⟨sl1, sl2, slot_setSlot_self sl1 (slot_lt hs), rfl, by rw [hsl2], fun h => by rw [hnone h]; exact ⟨rfl, rfl⟩,
            fun h => by rw [hsl2]; exact h⟩, rfl⟩, .inl ⟨f, ⟨rfl, rfl, rfl⟩, fun h => ?_⟩⟩⟩
        rcases hff with hff | hff <;> rw [hff] at h <;> cases h
    · rw [h2]
      have hq : s.rxq = [] ∧ arrivals ran = [] := List.append_eq_nil_iff.1 h1
      exact ⟨_, rfl, .inl ⟨0, by omega, received_nil ran hs he (by simp [State.afterMoves, hq]) rfl rfl rfl, .inl
        ⟨.timeout, ⟨rfl, rfl, rfl⟩, fun _ => ⟨by omega, rfl⟩⟩⟩⟩
    · rw [h1]
      exact ⟨_, rfl, .inr ⟨ran, _, he, rfl, rfl, rfl, rfl, rfl, rfl⟩⟩
    · rw [h3]
      have hq : s.rxq = [] ∧ arrivals s.env = [] := List.append_eq_nil_iff.1 h1
      refine ⟨_, rfl, .inl ⟨0, by omega, received_nil s.env hs (by simp [State.afterMoves]) (by simp [State.afterMoves, hq])
        rfl rfl rfl, .inr ⟨by omega, rfl, ?_, rfl, rfl, rfl, rfl, h2⟩⟩⟩
      show (BitVec.ofNat 5 (18 - (n + 1))).toNat ≤ 17
      rw [BitVec.toNat_ofNat]
      omega

/-! ### The whole operation -/

/-- Step 1 (R116, R73): nothing happens. -/
theorem receiveFrame_rejected (p : Config.Params) (m : Nat) (tmo : Word32) {s : State}
    (h : s.init = false ∨ s.slots.length ≤ m) : receiveFrame p m tmo s = .next s.reject := by
  refine if_neg fun hc => ?_
  rcases h with h | h
  · exact absurd hc.2 (by simp [h])
  · exact absurd hc.1 (by omega)

/-- Step 2 (R116): no byte is there. -/
theorem receiveFrame_empty (p : Config.Params) {m : Nat} (tmo : Word32) {s : State} (hi : s.init = true)
    (hm : m < s.slots.length) (hq : s.rxq = []) :
    receiveFrame p m tmo s = .next ((s.acceptReceive m tmo).finish .noIncomingData) := by
  unfold receiveFrame
  rw [if_pos ⟨hm, hi⟩]
  simp only [State.acceptReceive_rxq, hq]

/-- Step 3 (R117): a stray byte. -/
theorem receiveFrame_stray (p : Config.Params) {m : Nat} (tmo : Word32) {s : State} {b : Byte} {q : List Byte}
    (hi : s.init = true) (hm : m < s.slots.length) (hq : s.rxq = b :: q) (hb : b ≠ Config.startDelim) :
    receiveFrame p m tmo s = .next ({ s.acceptReceive m tmo with rxq := q }.finish .noIncomingData) := by
  unfold receiveFrame
  rw [if_pos ⟨hm, hi⟩]
  simp only [State.acceptReceive_rxq, hq, if_neg hb]

/-- The parser once the start delimiter is gone (R117). -/
def State.inWindow (s : State) (m : Nat) (tmo : Word32) (q : List Byte) : State :=
  { s with rxq := q, rx := { state := .readFixedWindow, i := 0, t0 := s.clk, tmo := tmo, found := false, m := m } }

/-- Steps 3 and 4 (R117): the window begins. -/
theorem receiveFrame_start (p : Config.Params) {m : Nat} (tmo : Word32) {s : State} {q : List Byte}
    (hi : s.init = true) (hm : m < s.slots.length) (hq : s.rxq = Config.startDelim :: q) :
    receiveFrame p m tmo s = receiveWindow p m 18 (s.inWindow m tmo q) := by
  unfold receiveFrame
  rw [if_pos ⟨hm, hi⟩]
  simp only [State.acceptReceive_rxq, hq, if_true]
  rfl

/-- Everything a receive can answer: never a stop. -/
theorem receiveFrame_spec (p : Config.Params) (m : Nat) (tmo : Word32) (s : State) :
    ∃ t, receiveFrame p m tmo s = .next t ∧
      (((s.init = false ∨ s.slots.length ≤ m) ∧ t = s.reject) ∨
       (s.init = true ∧ m < s.slots.length ∧
        ((∃ k, k ≤ 19 ∧ Received m k s t ∧ ((∃ f, Ended f s t ∧ (f = .timeout → k < 19 ∧ t.rxq = [])) ∨
            k < 19 ∧ (∃ q, Waits (s.inWindow m tmo q) t))) ∨ WasCutOff s t))) := by
  by_cases hr : s.init = false ∨ s.slots.length ≤ m
  · exact ⟨_, receiveFrame_rejected p m tmo hr, .inl ⟨hr, rfl⟩⟩
  · rw [not_or, Bool.not_eq_false, Nat.not_le] at hr
    obtain ⟨hi, hm⟩ := hr
    obtain ⟨sl, hs⟩ : ∃ sl, s.slots[m]? = some sl := ⟨_, List.getElem?_eq_getElem hm⟩
    have hnil (t : State) (k : Nat) (hk : k ≤ s.rxq.length) (hq : t.rxq = s.rxq.drop k) (h1 : t.slots = s.slots)
        (h2 : t.clk = s.clk) (h3 : t.env = s.env) (hrest : t = { s with
          slots := t.slots, fault := t.fault, rx := t.rx, rxq := t.rxq, clk := t.clk, responses := t.responses,
          env := t.env }) : Received m k s t :=
      ⟨⟨[], by simp [h3], by simpa [arrivals] using hk, by simpa [arrivals] using hq, by simp [elapsed, h2]⟩,
        ⟨sl, sl, hs, by rw [h1, ← (List.getElem?_eq_some_iff.1 hs).2, List.set_getElem_self], rfl, fun _ => ⟨rfl, rfl⟩, id⟩,
        hrest⟩
    cases hq : s.rxq with
    | nil =>
      exact ⟨_, receiveFrame_empty p tmo hi hm hq, .inr ⟨hi, hm, .inl ⟨0, by omega,
        hnil _ 0 (by omega) (by simp [hq]) rfl rfl rfl rfl, .inl ⟨_, ⟨rfl, rfl, rfl⟩, by simp⟩⟩⟩⟩
    | cons b q =>
      by_cases hb : b = Config.startDelim
      · subst hb
        rw [receiveFrame_start p tmo hi hm hq]
        obtain ⟨t, ht, h⟩ := receiveWindow_spec p m 18 (s.inWindow m tmo q) sl (le_refl _) hs (.inr (by omega))
        refine ⟨t, ht, .inr ⟨hi, hm, h.imp ?_ id⟩⟩
        rintro ⟨k, hk, hR, hE⟩
        have hset : (s.inWindow m tmo q).slots = s.slots.set m sl := by
          rw [← (List.getElem?_eq_some_iff.1 hs).2, List.set_getElem_self]; rfl
        have hbytes : s.rxq ++ arrivals [] = Config.startDelim :: q := by simp [hq, arrivals]
        have hclk : (s.inWindow m tmo q).clk = s.clk + elapsed [] := by simp [elapsed, State.inWindow]
        refine ⟨k + 1, by omega, Received.cons (s1 := s.inWindow m tmo q) (ran := []) rfl hbytes hs hset rfl hclk rfl rfl rfl
          (fun _ => ⟨rfl, rfl⟩) id hR, hE.imp ?_ ?_⟩
        · rintro ⟨f, hf, h⟩
          exact ⟨f, hf, fun hh => ⟨by have := (h hh).1; omega, (h hh).2⟩⟩
        · rintro ⟨hk, hW⟩
          exact ⟨by omega, q, hW⟩
      · exact ⟨_, receiveFrame_stray p tmo hi hm hq hb, .inr ⟨hi, hm, .inl ⟨1, by omega,
          hnil _ 1 (by simp [hq]) (by simp [hq]) rfl rfl rfl rfl, .inl ⟨_, ⟨rfl, rfl, rfl⟩, by simp⟩⟩⟩⟩

/-- The slot of a receive once header and payload are in (R120 to R123). -/
def Slot.withFrame (sl : Slot) (ts : Word32) (l : Byte) (id : Word32) (pl : List Byte) : Slot :=
  { sl with ts := ts, len := clampLen l, id := id, payload := memWrite sl.payload 0 pl }

/-- A whole frame that is there, its end delimiter at the expected place or later in the window: the receive comes to its
verification, whatever the environment does meanwhile (R117 to R125). -/
theorem receiveFrame_wire (p : Config.Params) {s : State} {m : Nat} {tmo : Word32} {sl : Slot} {ts : Word32} {l : Byte}
    {id : Word32} {pl gap rest : List Byte} (hi : s.init = true) (hs : s.slots[m]? = some sl) (hr : Move.reset ∉ s.env)
    (hp : pl.length = min l.toNat 8) (hg : (0xBB : Byte) ∉ gap) (hlen : pl.length + gap.length ≤ 8)
    (hq : s.rxq = 0xAA :: (wireHeader ts l id ++ pl ++ gap ++ 0xBB :: rest)) :
    ∃ s', receiveFrame p m tmo s = verifyFrame p m s' ∧ s.EnvRan s' rest ∧
      s'.slots = s.slots.set m (sl.withFrame ts l id pl) ∧
      s' = { s with slots := s'.slots, rx := s'.rx, rxq := s'.rxq, clk := s'.clk, env := s'.env } := by
  have hm := slot_lt hs
  have hclamp := clampLen_toNat l
  have hwl : (wireHeader ts l id ++ pl ++ gap).length = 9 + pl.length + gap.length := by simp; omega
  obtain ⟨n, hn⟩ : ∃ n, 18 = (wireHeader ts l id ++ pl ++ gap).length + (n + 1) := ⟨8 - pl.length - gap.length, by omega⟩
  obtain ⟨s1, h1, ⟨ran, h2, h3, h4⟩, h5, h6, h7, h8⟩ := receiveWindow_absorb p m (wireHeader ts l id ++ pl ++ gap)
    (0xBB :: rest) (n + 1) (s.inWindow m tmo (wireHeader ts l id ++ pl ++ gap ++ 0xBB :: rest)) sl
    (sl.withFrame ts l id pl) hs (by omega) rfl hr
    (by rw [← hn, Nat.sub_self]; exact absorb_frame ts l id pl gap sl hp hg)
  have hs1 : s1.slots[m]? = some (sl.withFrame ts l id pl) := by
    rw [h6]; exact List.getElem?_set_self hm
  obtain ⟨s2, g1, ⟨ran', g2, g3, g4⟩, g5, g6⟩ := receiveWindow_found p (n := n) hs1
    (q := rest ++ arrivals ran) (by rw [h3]; rfl) h5 (by
      show 9 + (clampLen l).toNat ≤ _
      rw [hclamp]; omega)
  refine ⟨s2, ?_, ⟨ran ++ ran', ?_, ?_, ?_⟩, ?_, ?_⟩
  · rw [receiveFrame_start p tmo hi hm hq, ← g1, ← h1, ← hn]
  · rw [List.append_assoc, ← g2]; exact h2
  · rw [g3, arrivals_append, List.append_assoc]
  · rw [g4, h4, elapsed_append, ← BitVec.add_assoc]; rfl
  · rw [g5, h6]; rfl
  · rw [g6, h7]; rfl

/-! ### The block's turns written out -/

/-- The wait reads the schedule it is given, not the one in the state. -/
theorem awaitByte_env (e x : List Move) (s : State) : awaitByte e { s with env := x } = awaitByte e s := by
  induction e generalizing s with
  | nil => rfl
  | cons y e ih =>
    cases y with
    | arrive b => exact ih (s.arrive b)
    | advance ms => exact ih (s.advance ms)
    | reset => rfl
    | block =>
      simp only [awaitByte]
      rw [ih]

/-- A pass whose byte is there at the block's turn. -/
theorem receiveWindow_absorb_turn (p : Config.Params) {m n : Nat} {s : State} {b : Byte} {q : List Byte} {e : List Move}
    {sl sl' : Slot} (hs : s.slots[m]? = some sl) (hq : s.rxq = b :: q) (he : s.env = .block :: e)
    (hw : windowByte (18 - (n + 1)) b sl = some (sl', false)) :
    receiveWindow p m (n + 1) s =
      receiveWindow p m n (({ s.startWait (18 - (n + 1)) with rxq := q, env := e } : State).setSlot m sl') := by
  have ha : awaitByte (.block :: e) (s.startWait (18 - (n + 1))) =
      .byte b { s.startWait (18 - (n + 1)) with rxq := q, env := e } := by
    rw [awaitByte, poll_cons (s := { s.startWait (18 - (n + 1)) with env := e }) (b := b) (q := q) hq]
  have hslot : ({ s.startWait (18 - (n + 1)) with rxq := q, env := e } : State).slot m = some sl := hs
  rw [receiveWindow_succ, he, ha]
  simp only [hslot, hw]

/-- A run of such passes. -/
theorem receiveWindow_absorb_turns (p : Config.Params) (m n : Nat) (ws : List Byte) (s : State) (sl sl' : Slot)
    (e : List Move) (hs : s.slots[m]? = some sl) (hq : s.rxq = ws) (he : s.env = List.replicate ws.length .block ++ e)
    (hn : ws.length + n ≤ 18) (ha : absorb (18 - (ws.length + n)) ws sl = some sl') :
    ∃ rx : Rx, receiveWindow p m (ws.length + n) s =
        receiveWindow p m n { s with slots := s.slots.set m sl', rxq := [], env := e, rx := rx } ∧
      rx.tmo = s.rx.tmo ∧ rx.state = s.rx.state := by
  induction ws generalizing s sl with
  | nil =>
    obtain rfl : sl = sl' := by simpa [absorb] using ha
    obtain ⟨h, hh⟩ := List.getElem?_eq_some_iff.1 hs
    have he : s.env = e := by simpa using he
    refine ⟨s.rx, ?_, rfl, rfl⟩
    rw [List.length_nil, Nat.zero_add, ← hh, List.set_getElem_self, ← hq, ← he]
  | cons b ws ih =>
    simp only [List.length_cons, Nat.add_right_comm _ 1] at hn ha ⊢
    simp only [absorb] at ha
    split at ha
    · next sl1 hw =>
      have he' : s.env = .block :: (List.replicate ws.length .block ++ e) := by rw [he]; rfl
      rw [receiveWindow_absorb_turn p hs hq he' hw]
      obtain ⟨rx, h1, h2, h3⟩ := ih (({ s.startWait (18 - (ws.length + n + 1)) with
          rxq := ws, env := List.replicate ws.length .block ++ e } : State).setSlot m sl1) sl1
        (by simp [State.startWait, slot_lt hs]) rfl rfl (by omega) (by rw [← ha]; congr 1; omega)
      refine ⟨rx, ?_, h2, h3⟩
      rw [h1]
      simp [State.startWait, State.setSlot]
    · cases ha

end Sys2Proof.Machine
end

