-- ==== Sys2Proof/Laws/Send.lean ====
section
/-! SUPPORT. What `XCV.SEND` can do, said once: the payload after the insertion, the bytes of the scratch buffer, the
transmission along the schedule, the next state, cut off or not. -/

namespace Sys2Proof.Machine

/-- The frame of a slot whose payload array is `P` (R60). -/
def wireFrame (sl : Slot) (P : Vector Byte Config.payloadSize) (ts : Word32) : List Byte :=
  Config.startDelim :: (wireHeader ts sl.len sl.id ++ P.toList.take sl.len.toNat ++ [Config.endDelim])

theorem wireFrame_length (sl : Slot) (P : Vector Byte Config.payloadSize) (ts : Word32) (h : sl.len ≤ 8) :
    (wireFrame sl P ts).length = 11 + sl.len.toNat := by
  have : sl.len.toNat ≤ 8 := h
  simp [wireFrame, Config.payloadSize]; omega

/-- The bytes `XCV.SEND` reads back from the scratch buffer are the frame (R106). -/
theorem memRead_serialize (S : Vector Byte Config.scratchSize) (sl : Slot) (P : Vector Byte Config.payloadSize)
    (ts : Word32) (h : sl.len ≤ 8) :
    memRead (serialize S sl P ts) 0 (11 + sl.len.toNat) = wireFrame sl P ts := by
  have hl : sl.len.toNat ≤ 8 := h
  have hp : (memRead P 0 sl.len.toNat).length = sl.len.toNat := memRead_length P 0 _ (by simpa using hl)
  simp only [serialize]
  rw [show 11 + sl.len.toNat = (10 + sl.len.toNat) + [Config.endDelim].length by simp; omega,
    memRead_memWrite _ _ _ (by simp [Config.scratchSize]; omega),
    show 10 + sl.len.toNat = 10 + (memRead P 0 sl.len.toNat).length by omega,
    memRead_memWrite _ _ _ (by simp [hp, Config.scratchSize]; omega),
    show (10 : Nat) = 6 + (leBytes 4 sl.id).length by simp, memRead_memWrite _ _ _ (by simp [Config.scratchSize]),
    show (6 : Nat) = 5 + [sl.len].length by simp, memRead_memWrite _ _ _ (by simp [Config.scratchSize]),
    show (5 : Nat) = 1 + (leBytes 4 ts).length by simp, memRead_memWrite _ _ _ (by simp [Config.scratchSize]),
    show (1 : Nat) = 0 + [Config.startDelim].length by simp, memRead_memWrite _ _ _ (by simp [Config.scratchSize])]
  simp [wireFrame, wireHeader, leBytes_four, memRead]

/-- Serializing leaves the scratch bytes beyond the frame alone (R105). -/
theorem serialize_getElem?_beyond (S : Vector Byte Config.scratchSize) (sl : Slot) (P : Vector Byte Config.payloadSize)
    (ts : Word32) (j : Nat) (h : sl.len ≤ 8) (hj : 11 + sl.len.toNat ≤ j) : (serialize S sl P ts)[j]? = S[j]? := by
  have hl : sl.len.toNat ≤ 8 := h
  have hp : (memRead P 0 sl.len.toNat).length = sl.len.toNat := memRead_length P 0 _ (by simpa using hl)
  simp only [serialize]
  rw [memWrite_getElem?_outside _ _ _ _ (.inr (by simp; omega)),
    memWrite_getElem?_outside _ _ _ _ (.inr (by omega)),
    memWrite_getElem?_outside _ _ _ _ (.inr (by simp; omega)),
    memWrite_getElem?_outside _ _ _ _ (.inr (by simp; omega)),
    memWrite_getElem?_outside _ _ _ _ (.inr (by simp; omega)),
    memWrite_getElem?_outside _ _ _ _ (.inr (by simp; omega))]

/-! ### The transmission along the schedule -/

/-- A state after moves `ran` of the schedule, with `rem` still to come, in which the block has written `bytes` (R48). -/
def State.afterWrites (s : State) (ran rem : List Move) (bytes : List Byte) : State :=
  { s.afterMoves ran rem (s.rxq ++ arrivals ran) with txq := s.txq ++ bytes }

theorem afterWrites_arrive (s : State) (b : Byte) (ran rem : List Move) (bytes : List Byte) :
    (s.arrive b).afterWrites ran rem bytes = s.afterWrites (.arrive b :: ran) rem bytes := by
  simp [State.afterWrites, State.afterMoves, arrivals, elapsed]

theorem afterWrites_advance (s : State) (ms : Word32) (ran rem : List Move) (bytes : List Byte) :
    (s.advance ms).afterWrites ran rem bytes = s.afterWrites (.advance ms :: ran) rem bytes := by
  simp [State.afterWrites, State.afterMoves, arrivals, elapsed, BitVec.add_assoc]

theorem afterWrites_txWrite (s : State) (b : Byte) (ran rem : List Move) (bytes : List Byte) :
    (s.txWrite b).afterWrites ran rem bytes = s.afterWrites (.block :: ran) rem (b :: bytes) := by
  simp [State.afterWrites, State.afterMoves, arrivals, elapsed]

theorem afterWrites_nil (s : State) (rem : List Move) (bytes : List Byte) :
    s.afterWrites [] rem bytes = { s with env := rem, txq := s.txq ++ bytes } := by
  simp [State.afterWrites, State.afterMoves, arrivals, elapsed]

/-- How much of the schedule a transmission of `n` bytes reads: all of it, or a turn for each byte and one for its end. -/
def SendTurns (n : Nat) (ran rem : List Move) : Prop :=
  rem = [] ∧ turns ran ≤ n ∨ ∃ r, ran = r ++ [.block] ∧ turns r = n

theorem SendTurns.cons {n : Nat} {ran rem : List Move} {x : Move} (h : SendTurns n ran rem) :
    SendTurns (n + turns [x]) (x :: ran) rem := by
  have hx (l : List Move) : turns (x :: l) = turns l + turns [x] := by simp [turns, List.count_cons]
  obtain ⟨rfl, h⟩ | ⟨r, rfl, h⟩ := h
  · exact .inl ⟨rfl, by rw [hx]; omega⟩
  · exact .inr ⟨x :: r, rfl, by rw [hx]; omega⟩

/-- Everything the transmission of `bytes` along the schedule `e` can end in (R48, R109, R163): all of them are written;
or the reset came after as many bytes as the block had turns. -/
def TransmitSpec (e : List Move) (bytes : List Byte) (s : State) : Prop :=
  (∃ ran rem, e = ran ++ rem ∧ Move.reset ∉ ran ∧ SendTurns bytes.length ran rem ∧
    transmit e bytes s = .sent (s.afterWrites ran rem bytes)) ∨
  (∃ ran rem, e = ran ++ .reset :: rem ∧ Move.reset ∉ ran ∧ turns ran ≤ bytes.length ∧
    transmit e bytes s = .cutOff (s.afterWrites ran rem (bytes.take (turns ran))).blockReset)

theorem transmit_cases (e : List Move) (bytes : List Byte) (s : State) : TransmitSpec e bytes s := by
  induction e generalizing bytes s with
  | nil =>
    refine .inl ⟨[], [], rfl, List.not_mem_nil, .inl ⟨rfl, Nat.zero_le _⟩, ?_⟩
    rw [transmit, foldl_txWrite, afterWrites_nil]
  | cons x e ih =>
    cases x with
    | arrive b =>
      obtain ⟨ran, rem, h, hr, hc, ht⟩ | ⟨ran, rem, h, hr, hc, ht⟩ := ih bytes (s.arrive b)
      · refine .inl ⟨.arrive b :: ran, rem, by simp [h], by simp [hr], hc.cons, ?_⟩
        rw [transmit, ht, afterWrites_arrive]
      · refine .inr ⟨.arrive b :: ran, rem, by simp [h], by simp [hr], by simpa using hc, ?_⟩
        rw [transmit, ht, afterWrites_arrive, turns, turns, List.count_cons_of_ne (by simp)]
    | advance ms =>
      obtain ⟨ran, rem, h, hr, hc, ht⟩ | ⟨ran, rem, h, hr, hc, ht⟩ := ih bytes (s.advance ms)
      · refine .inl ⟨.advance ms :: ran, rem, by simp [h], by simp [hr], hc.cons, ?_⟩
        rw [transmit, ht, afterWrites_advance]
      · refine .inr ⟨.advance ms :: ran, rem, by simp [h], by simp [hr], by simpa using hc, ?_⟩
        rw [transmit, ht, afterWrites_advance, turns, turns, List.count_cons_of_ne (by simp)]
    | reset =>
      refine .inr ⟨[], e, rfl, List.not_mem_nil, by simp, ?_⟩
      rw [transmit, afterWrites_nil]
      simp
    | block =>
      cases bytes with
      | nil =>
        refine .inl ⟨[.block], e, rfl, by simp, .inr ⟨[], rfl, rfl⟩, ?_⟩
        simp [transmit, State.afterWrites, State.afterMoves, arrivals, elapsed]
      | cons b bytes =>
        obtain ⟨ran, rem, h, hr, hc, ht⟩ | ⟨ran, rem, h, hr, hc, ht⟩ := ih bytes (s.txWrite b)
        · refine .inl ⟨.block :: ran, rem, by simp [h], by simp [hr], hc.cons, ?_⟩
          rw [transmit, ht, afterWrites_txWrite]
        · refine .inr ⟨.block :: ran, rem, by simp [h], by simp [hr], by simpa using hc, ?_⟩
          rw [transmit, ht, afterWrites_txWrite, turns, turns, List.count_cons_self, List.take_succ_cons]

/-- The moves before the first reset. -/
theorem takeWhile_reset {ran : List Move} (rem : List Move) (h : Move.reset ∉ ran) :
    (ran ++ .reset :: rem).takeWhile (· ≠ .reset) = ran := by
  rw [List.takeWhile_append_of_pos fun x hx => by simpa using fun hh : x = .reset => h (hh ▸ hx)]
  simp

/-- With turns enough before any reset, every byte is written. -/
theorem transmit_uncut {e : List Move} {bytes : List Byte} (s : State) (h : Uncut (bytes.length + 1) e) :
    ∃ ran rem, e = ran ++ rem ∧ Move.reset ∉ ran ∧ SendTurns bytes.length ran rem ∧
      transmit e bytes s = .sent (s.afterWrites ran rem bytes) := by
  obtain ht | ⟨ran, rem, rfl, hr, hc, -⟩ := transmit_cases e bytes s
  · exact ht
  · have := h (by simp)
    rw [takeWhile_reset rem hr] at this
    omega

/-- With a reset in time, the bytes written before it are all that is sent (R163). -/
theorem transmit_cut {ran : List Move} (rem : List Move) {bytes : List Byte} (s : State) (hr : Move.reset ∉ ran)
    (hc : turns ran ≤ bytes.length) :
    transmit (ran ++ .reset :: rem) bytes s =
      .cutOff (s.afterWrites ran rem (bytes.take (turns ran))).blockReset := by
  obtain ⟨ran', rem', h, hr', h', -⟩ | ⟨ran', rem', h, hr', -, ht⟩ := transmit_cases (ran ++ .reset :: rem) bytes s
  · have hran : ran' <+: ran := by
      have hp := takeWhile_reset rem hr
      rw [h, List.takeWhile_append_of_pos fun x hx => by simpa using fun hh : x = .reset => hr' (hh ▸ hx)] at hp
      exact ⟨_, hp⟩
    obtain ⟨rfl, -⟩ | ⟨r, rfl, h'⟩ := h'
    · exact absurd (by rw [List.append_nil] at h; simp [← h]) hr'
    · have := hran.sublist.count_le Move.block
      simp only [turns, List.count_append, List.count_singleton_self] at hc h' this
      omega
  · have hran := congrArg (List.takeWhile (· ≠ .reset)) h
    rw [takeWhile_reset rem hr, takeWhile_reset rem' hr'] at hran
    obtain rfl := hran
    obtain rfl : rem = rem' := by simpa using h
    exact ht

/-! ### The operation -/

/-- The state in which an accepted send transmits: payload and scratch buffer as written (R105). -/
def State.serialized (p : Config.Params) (s : State) (m : Nat) (sl : Slot) (ts : Word32) : State :=
  { s.setSlot m { sl with payload := sendPayload p sl } with scratch := serialize s.scratch sl (sendPayload p sl) ts }

/-- A send that passes its preconditions transmits its frame. -/
theorem sendFrame_eq (p : Config.Params) {s : State} {m : Nat} {sl : Slot} (ts : Word32) (hi : s.init = true)
    (hs : s.slots[m]? = some sl) (hl : sl.len ≤ 8) (hc : sl.crcMode = .crc8 → 2 ≤ sl.len) :
    sendFrame p m ts s =
      match transmit s.env (wireFrame sl (sendPayload p sl) ts) (s.serialized p m sl ts) with
      | .sent t => .next (t.setSlot m { sl with payload := sendPayload p sl, ctr := sl.ctr + 1 }).ok
      | .cutOff t => .next t := by
  have h1 : ¬ (sl.crcMode = .crc8 ∧ sl.len < 2) := fun h => absurd (hc h.1) (by simpa using h.2)
  have h2 : ¬ (8 < sl.len) := by simpa using hl
  unfold sendFrame State.slot
  rw [hs]
  simp only [if_neg h1, if_neg h2, memRead_serialize _ _ _ _ hl]
  rw [if_neg (by simp [hi])]
  rfl

/-- The next state of an accepted send that no reset cuts off (R105, R48): the frame is on `TXQ`, and `ran` are the moves made
while it was written. -/
def State.afterSend (p : Config.Params) (s : State) (m : Nat) (sl : Slot) (ts : Word32) (ran rem : List Move) : State :=
  { s.afterWrites ran rem (wireFrame sl (sendPayload p sl) ts) with
    slots := s.slots.set m { sl with payload := sendPayload p sl, ctr := sl.ctr + 1 }
    scratch := serialize s.scratch sl (sendPayload p sl) ts
    responses := s.responses ++ [⟨.ok, none⟩] }

/-- The next state of an accepted send that a reset cuts off after the moves `ran` (R163). -/
def State.afterCutSend (p : Config.Params) (s : State) (sl : Slot) (ts : Word32) (ran rem : List Move) : State :=
  (s.afterWrites ran rem ((wireFrame sl (sendPayload p sl) ts).take (turns ran))).blockReset

/-- What was prepared does not outlive the reset. -/
theorem blockReset_serialized (p : Config.Params) (s : State) (m : Nat) (sl : Slot) (ts : Word32) (ran rem : List Move)
    (bytes : List Byte) :
    ((s.serialized p m sl ts).afterWrites ran rem bytes).blockReset = (s.afterWrites ran rem bytes).blockReset := by
  simp [State.blockReset, State.serialized, State.afterWrites, State.afterMoves, State.setSlot]

/-- The end of a send whose bytes are all written (R110). -/
theorem serialized_sent (p : Config.Params) (s : State) (m : Nat) (sl : Slot) (ts : Word32) (ran rem : List Move) :
    (((s.serialized p m sl ts).afterWrites ran rem (wireFrame sl (sendPayload p sl) ts)).setSlot m
      { sl with payload := sendPayload p sl, ctr := sl.ctr + 1 }).ok = s.afterSend p m sl ts ran rem := by
  simp [State.afterSend, State.serialized, State.afterWrites, State.afterMoves, State.setSlot, State.ok, State.respond]

/-- A send that passes its preconditions and meets no reset (R105): everything it changes. -/
theorem sendFrame_accepted (p : Config.Params) {s : State} {m : Nat} {sl : Slot} (ts : Word32) (hi : s.init = true)
    (hs : s.slots[m]? = some sl) (hl : sl.len ≤ 8) (hc : sl.crcMode = .crc8 → 2 ≤ sl.len)
    (hu : Uncut (12 + sl.len.toNat) s.env) :
    ∃ ran rem, s.env = ran ++ rem ∧ Move.reset ∉ ran ∧ SendTurns (11 + sl.len.toNat) ran rem ∧
      sendFrame p m ts s = .next (s.afterSend p m sl ts ran rem) := by
  have hlen := wireFrame_length sl (sendPayload p sl) ts hl
  obtain ⟨ran, rem, he, hr, hb, ht⟩ := transmit_uncut (e := s.env) (bytes := wireFrame sl (sendPayload p sl) ts)
    (s.serialized p m sl ts) (by rwa [hlen, Nat.add_right_comm])
  refine ⟨ran, rem, he, hr, hlen ▸ hb, ?_⟩
  rw [sendFrame_eq p ts hi hs hl hc, ht, ← serialized_sent]

/-- A send that a reset cuts off (R163): everything it leaves. -/
theorem sendFrame_cut (p : Config.Params) {s : State} {m : Nat} {sl : Slot} {ran rem : List Move} (ts : Word32)
    (hi : s.init = true) (hs : s.slots[m]? = some sl) (hl : sl.len ≤ 8) (hc : sl.crcMode = .crc8 → 2 ≤ sl.len)
    (he : s.env = ran ++ .reset :: rem) (hr : Move.reset ∉ ran) (hb : turns ran ≤ 11 + sl.len.toNat) :
    sendFrame p m ts s = .next (s.afterCutSend p sl ts ran rem) := by
  rw [sendFrame_eq p ts hi hs hl hc, he,
    transmit_cut rem (s.serialized p m sl ts) hr (wireFrame_length _ _ _ hl ▸ hb)]
  exact congrArg _ (blockReset_serialized p s m sl ts ran rem _)

/-- A send that fails a precondition (R108, R111, R73). -/
theorem sendFrame_rejected (p : Config.Params) {s : State} {m : Nat} (ts : Word32)
    (h : s.slots[m]? = none ∨ s.init = false ∨ ∃ sl, s.slots[m]? = some sl ∧ sl.crcMode = .crc8 ∧ sl.len < 2) :
    sendFrame p m ts s = .next s.reject := by
  unfold sendFrame State.slot
  cases hs : s.slots[m]? with
  | none => rfl
  | some sl =>
    rw [hs] at h
    obtain h | h | ⟨sl', he, h⟩ := h
    · cases h
    · exact if_pos h
    · obtain rfl := Option.some.inj he
      show (if s.init = false then _ else _) = _
      rw [if_pos h, ite_self]

/-- The four cases of a send, whatever the state. -/
theorem sendFrame_cases (p : Config.Params) (s : State) (m : Nat) (ts : Word32) :
    sendFrame p m ts s = .next s.reject ∨
    (sendFrame p m ts s = .fault .payloadIndex ∧ ∃ sl, s.slots[m]? = some sl ∧ 8 < sl.len) ∨
    ∃ sl, s.init = true ∧ s.slots[m]? = some sl ∧ sl.len ≤ 8 ∧ (sl.crcMode = .crc8 → 2 ≤ sl.len) ∧ ∃ ran rem,
      Move.reset ∉ ran ∧
      (s.env = ran ++ rem ∧ sendFrame p m ts s = .next (s.afterSend p m sl ts ran rem) ∨
        s.env = ran ++ .reset :: rem ∧ sendFrame p m ts s = .next (s.afterCutSend p sl ts ran rem)) := by
  cases hs : s.slots[m]? with
  | none => exact .inl (sendFrame_rejected p ts (.inl hs))
  | some sl =>
    by_cases h0 : s.init = false
    · exact .inl (sendFrame_rejected p ts (.inr (.inl h0)))
    by_cases h1 : sl.crcMode = .crc8 ∧ sl.len < 2
    · exact .inl (sendFrame_rejected p ts (.inr (.inr ⟨sl, hs, h1⟩)))
    by_cases h2 : 8 < sl.len
    · refine .inr (.inl ⟨?_, sl, rfl, h2⟩)
      unfold sendFrame State.slot
      rw [hs]
      simp only [if_neg h0, if_neg h1, if_pos h2]
    have hi : s.init = true := by simpa using h0
    have hl : sl.len ≤ 8 := by simpa using h2
    have hc : sl.crcMode = .crc8 → 2 ≤ sl.len := fun hm => by simpa using fun h => h1 ⟨hm, h⟩
    refine .inr (.inr ⟨sl, hi, rfl, hl, hc, ?_⟩)
    obtain ⟨ran, rem, he, hr, -, ht⟩ | ⟨ran, rem, he, hr, hb, -⟩ :=
      transmit_cases s.env (wireFrame sl (sendPayload p sl) ts) (s.serialized p m sl ts)
    · refine ⟨ran, rem, hr, .inl ⟨he, ?_⟩⟩
      rw [sendFrame_eq p ts hi hs hl hc, ht]
      rw [← serialized_sent]
    · exact ⟨ran, rem, hr, .inr ⟨he, sendFrame_cut p ts hi hs hl hc he hr (wireFrame_length _ _ _ hl ▸ hb)⟩⟩

/-- The payload of a `CRC8`-mode send, byte by byte (R107). -/
theorem sendPayload_crc8 (p : Config.Params) (sl : Slot) (hm : sl.crcMode = .crc8) (h2 : 2 ≤ sl.len) (h8 : sl.len ≤ 8) :
    (sendPayload p sl)[sl.len.toNat - 2]? = some sl.ctr ∧
    (p.coversCounter = false →
      (sendPayload p sl)[sl.len.toNat - 1]? = some (crc8 p.table (sl.payload.toList.take (sl.len.toNat - 2)))) ∧
    ∀ k, k ≠ sl.len.toNat - 2 → k ≠ sl.len.toNat - 1 → (sendPayload p sl)[k]? = sl.payload[k]? := by
  have h2' : 2 ≤ sl.len.toNat := h2
  have h8' : sl.len.toNat ≤ 8 := h8
  simp only [sendPayload, hm]
  refine ⟨?_, fun hp => ?_, fun k hk hk' => ?_⟩
  · rw [memWrite_getElem?_outside _ _ _ _ (.inl (by omega))]
    simpa using memWrite_getElem?_inside sl.payload (sl.len.toNat - 2) 0 [sl.ctr] (by simp)
      (by simp [Config.payloadSize]; omega)
  · have := memWrite_getElem?_inside (memWrite sl.payload (sl.len.toNat - 2) [sl.ctr]) (sl.len.toNat - 1) 0
      [crc8 p.table (memRead (memWrite sl.payload (sl.len.toNat - 2) [sl.ctr]) 0 (coveredBytes p sl.len.toNat))]
      (by simp) (by simp [Config.payloadSize]; omega)
    rw [Nat.add_zero] at this
    rw [this]
    simp only [coveredBytes, hp, List.getElem?_cons_zero]
    rw [memRead_memWrite_before _ _ _ _ (by simp)]
    simp [memRead]
  · rw [memWrite_getElem?_outside _ _ _ _ (by simp; omega), memWrite_getElem?_outside _ _ _ _ (by simp; omega)]

theorem sendPayload_none (p : Config.Params) (sl : Slot) (hm : sl.crcMode = .none) : sendPayload p sl = sl.payload := by
  simp [sendPayload, hm]

/-- The bytes of the frame, field by field (R60). -/
theorem wireFrame_getElem? {sl : Slot} (P : Vector Byte Config.payloadSize) (ts : Word32) (hl : sl.len ≤ 8) :
    (wireFrame sl P ts)[0]? = some 0xAA ∧
    (∀ i, i < 4 → (wireFrame sl P ts)[1 + i]? = some ((ts >>> (8 * i)).setWidth 8)) ∧
    (wireFrame sl P ts)[5]? = some sl.len ∧
    (∀ i, i < 4 → (wireFrame sl P ts)[6 + i]? = some ((sl.id >>> (8 * i)).setWidth 8)) ∧
    (∀ k, k < sl.len.toNat → (wireFrame sl P ts)[10 + k]? = P[k]?) ∧
    (wireFrame sl P ts)[10 + sl.len.toNat]? = some 0xBB := by
  have hl' : sl.len.toNat ≤ 8 := hl
  have hw (v : Word32) (i : Nat) (h : i < 4) : (wireWord v)[i]? = some ((v >>> (8 * i)).setWidth 8) := by
    rw [← leBytes_four, leBytes_getElem? 4 i v h]; rfl
  refine ⟨rfl, fun i hi => ?_, rfl, fun i hi => ?_, fun k hk => ?_, ?_⟩
  · rw [← hw ts i hi]; interval_cases i <;> rfl
  · rw [← hw sl.id i hi]; interval_cases i <;> rfl
  · rw [wireFrame, show 10 + k = (9 + k) + 1 by omega, List.getElem?_cons_succ, List.append_assoc,
      List.getElem?_append_right (by simp), List.getElem?_append_left (by simp [Config.payloadSize]; omega)]
    simp [hk]
  · rw [wireFrame, show 10 + sl.len.toNat = (9 + sl.len.toNat) + 1 by omega, List.getElem?_cons_succ,
      List.getElem?_append_right (by simp)]
    have : (wireHeader ts sl.len sl.id ++ List.take sl.len.toNat P.toList).length = 9 + sl.len.toNat := by
      simp [Config.payloadSize, hl']
    rw [this]
    simp
    rfl

end Sys2Proof.Machine
end

