-- ==== Sys2Proof/Laws/Step.lean ====
section
/-! SUPPORT. What one step can do: whose turn it is, which command is accepted, and one row of the parser. -/

namespace Sys2Proof.Machine

/-- The block's turn, taken off the schedule. -/
theorem turn_block {s : State} (h : s.env = [] ∨ ∃ e, s.env = .block :: e) :
    s.turn = .block { s with env := s.env.tail } := by
  unfold State.turn
  rcases h with h | ⟨e, h⟩
  · have hs : ({ s with env := s.env.tail } : State) = s := by rw [h, List.tail_nil, ← h]
    rw [hs, h]
  · rw [h]; rfl

theorem turn_nil {s : State} (h : s.env = []) : s.turn = .block s := by
  unfold State.turn; rw [h]

/-- A ready port gives the caller's oldest command (R71). -/
theorem fetch_command {s : State} {c : Command} {cs : List Command} (h : s.rx.state = .idle) (hp : s.port = c :: cs) :
    s.fetch = some (c, { s with port := cs }) := by
  unfold State.fetch; rw [h, hp]

/-- A receive in flight keeps the port closed (R50, R170). -/
theorem fetch_busy {s : State} (h : s.rx.state ≠ .idle) : s.fetch = none := by
  unfold State.fetch
  split
  · next h' _ => exact absurd h' h
  · rfl

/-- With a receive in flight and nothing scheduled a step is a row of the parser (R131). -/
theorem step_parser {s : State} (h : s.rx.state ≠ .idle) (he : s.env = []) : step s = parserRow Config.params s := by
  simp only [step, turn_nil he, blockMove, fetch_busy h]

/-- A step of the machine, then the rest of the run. -/
theorem run_succ (M : Host.Core) (k : Nat) (s s' : M.State) (h : M.step s = .next s') : M.run (k + 1) s = M.run k s' := by
  simp only [Host.Core.run, h]

/-- What a row of the parser leaves alone, whatever it does. -/
structure RowFrame (s t : State) : Prop where
  init : t.init = s.init
  port : t.port = s.port
  txq : t.txq = s.txq
  begun : t.begun = s.begun
  scratch : t.scratch = s.scratch
  others : ∀ j, j ≠ s.rx.m → t.slots[j]? = s.slots[j]?
  going : t.rx.state ≠ .idle → t.responses = s.responses ∧ t.fault = s.fault

/-- The end of a frame leaves everything alone but the slot and the end of the receive. -/
theorem verifyFrame_frame {p : Config.Params} {m : Nat} {s s' t : State} (hm : m = s.rx.m) (h : RowFrame s s')
    (hv : verifyFrame p m s' = .next t) : RowFrame s t := by
  obtain ⟨a, b, c, d, e, f, -⟩ := h
  unfold verifyFrame State.slot at hv
  split at hv
  · cases hv
  · split at hv
    · cases hv; exact ⟨a, b, c, d, e, f, fun h => absurd rfl h⟩
    · dsimp only at hv
      split_ifs at hv
      · cases hv; exact ⟨a, b, c, d, e, f, fun h => absurd rfl h⟩
      all_goals
        cases hv
        exact ⟨a, b, c, d, e, fun j hj => by
          simp only [State.finish_slots, State.setSlot_slots]
          rw [List.getElem?_set_ne (hm ▸ hj.symm)]; exact f j hj, fun h => absurd rfl h⟩

/-- The frame of one row of the parser (R131). -/
theorem parserRow_frame {p : Config.Params} {s t : State} (h : parserRow p s = .next t) : RowFrame s t := by
  unfold parserRow at h
  split at h
  · cases h; exact ⟨rfl, rfl, rfl, rfl, rfl, fun _ _ => rfl, fun _ => ⟨rfl, rfl⟩⟩
  · unfold awaitStartRow at h
    split at h
    · cases h; exact ⟨rfl, rfl, rfl, rfl, rfl, fun _ _ => rfl, fun h => absurd rfl h⟩
    · split at h
      · cases h; exact ⟨rfl, rfl, rfl, rfl, rfl, fun _ _ => rfl, fun _ => ⟨rfl, rfl⟩⟩
      · cases h; exact ⟨rfl, rfl, rfl, rfl, rfl, fun _ _ => rfl, fun h => absurd rfl h⟩
  · unfold windowRow at h
    split at h
    · split at h
      · cases h; exact ⟨rfl, rfl, rfl, rfl, rfl, fun _ _ => rfl, fun h => absurd rfl h⟩
      · cases h; exact ⟨rfl, rfl, rfl, rfl, rfl, fun _ _ => rfl, fun _ => ⟨rfl, rfl⟩⟩
    · split at h
      · cases h
      · split at h
        · cases h
        · split at h
          · cases h
          · next sl' found hw =>
            have g (j : Nat) (hj : j ≠ s.rx.m) : (s.slots.set s.rx.m sl')[j]? = s.slots[j]? :=
              List.getElem?_set_ne hj.symm
            dsimp only at h
            split at h
            · refine verifyFrame_frame (s := s) rfl ?_ h
              exact ⟨rfl, rfl, rfl, rfl, rfl, g, fun _ => ⟨rfl, rfl⟩⟩
            · split at h
              · cases h; exact ⟨rfl, rfl, rfl, rfl, rfl, g, fun h => absurd rfl h⟩
              · cases h; exact ⟨rfl, rfl, rfl, rfl, rfl, g, fun _ => ⟨rfl, rfl⟩⟩

end Sys2Proof.Machine
end

