-- ==== Sys2Proof/Tests/Slice0.lean ====
section
/-! SUPPORT. The model's own tests. Expected values are those of `95_test_vectors.md` (a vector's id stands beside its
test) or are written out from the rule named there. The last part holds, for every statement with hypotheses, a concrete
state and operands that meet them. -/

namespace Sys2Proof.Tests

open Sys2Proof.Machine

/-! ### Small states -/

/-- A slot that holds a payload. -/
def slotOf (id : Word32) (len : Byte) (mode : CrcMode) (payload : Vector Byte 8) (ctr : Byte) : Slot :=
  { id := id, len := len, crcMode := mode, ts := 0, payload := payload, ctr := ctr, crc := 0 }

/-- A ready block: slot 0 as after reset, slot 1 given, bytes waiting in `RXQ`. -/
def ready (sl : Slot) (q : List Byte) : State := { State.reset with slots := [Slot.reset, sl], init := true, rxq := q }

/-- A receive into slot 1 waits for window byte `i`. -/
def waiting (sl : Slot) (i : BitVec 5) (tmo : Word32) (q : List Byte) : State :=
  { ready sl q with rx := { state := .readFixedWindow, i := i, t0 := 0, tmo := tmo, found := false, m := 1 } }

/-- What is seen of the next state. -/
def seen {α : Type} (f : State → α) : Result → Option α
  | .next t => some (f t)
  | .fault _ => none
  | .refused _ => none

/-- Slot 1, `FAULT`, what is left in `RXQ`, and the responses. -/
def received (t : State) : Option Slot × FaultReason × List Byte × List Response :=
  (t.slot 1, t.fault, t.rxq, t.responses)

/-- The illustrative table of `95_test_vectors.md` section 3, generated as that section says. It is not the hardware's. -/
def t07 (x : Byte) : Byte :=
  let go (r : Byte) : Byte := if r.msb then (r <<< 1) ^^^ 0x07 else r <<< 1
  go (go (go (go (go (go (go (go x)))))))

/-- Parameters with that table. -/
def withT07 (covers : Bool) : Config.Params := { table := t07, coversCounter := covers }

/-! ### Well-formedness: one ill-formed term for each check (R72) -/

theorem test_wf_slot : Instr.wellFormed 2 (.xcvSend 2 0) = false := by decide
theorem test_wf_width : Instr.wellFormed 2 (.msgPackv 0 3 []) = false := by decide
theorem test_wf_element : Instr.wellFormed 2 (.msgPackv 0 2 [0x10000]) = false := by decide
theorem test_wf_boundary : Instr.wellFormed 2 (.msgPackv 1 2 [0xFFFF]) = true := by decide

/-! ### Decoding: the codes of R72, bit by bit -/

theorem test_decode_crc8Compute :
    decode { op := 0b00000000, bytes := [0x5A] } = .ok (.crc8Compute [0x5A]) := rfl
theorem test_decode_msgInit :
    decode { op := 0b00000001, m := 1, id := 0x7FF, len := 6, mode := .crc8 } = .ok (.msgInit 1 0x7FF 6 .crc8) := rfl
theorem test_decode_msgPackv :
    decode { op := 0b00000010, m := 1, w := 4, vals := [7] } = .ok (.msgPackv 1 4 [7]) := rfl
theorem test_decode_msgPackt : decode { op := 0b00000011, m := 1, text := [0x74] } = .ok (.msgPackt 1 [0x74]) := rfl
theorem test_decode_xcvBegin : decode { op := 0b00000100, cfg := ⟨9⟩ } = .ok (.xcvBegin ⟨9⟩) := rfl
theorem test_decode_xcvSend : decode { op := 0b00000101, m := 1, ts := 3 } = .ok (.xcvSend 1 3) := rfl
theorem test_decode_xcvRecv : decode { op := 0b00000110, m := 1, timeoutMs := 50 } = .ok (.xcvRecv 1 50) := rfl
theorem test_decode_xcvGetfault : decode { op := 0b00000111 } = .ok .xcvGetfault := rfl
theorem test_decode_reserved_first : decode { op := 0b00001000 } = .error (.reservedOp 0x08) := rfl
theorem test_decode_reserved_last : decode { op := 0b11111111 } = .error (.reservedOp 0xFF) := rfl
theorem test_decodeTableWord : decodeTableWord 8 0x05 = some (.xcvSend 0 0) := rfl
theorem test_decodeTableWord_reserved : decodeTableWord 8 0x08 = none := rfl
theorem test_withFetchWord : step (State.reset.withFetchWord 8 0x04) = exec (.xcvBegin ⟨0⟩) State.reset := rfl

/-! ### CRC8.COMPUTE (R80 to R82) -/

/-- V-C1. -/
theorem test_compute_empty :
    seen State.responses (exec (.crc8Compute []) State.reset) = some [⟨.ok, some 0x00⟩] := by decide
/-- V-T1 and table T07: one row each. -/
theorem test_crc8_t07 :
    crc8 t07 [0x01, 0x02] = 0x1B ∧ crc8 t07 [0x31, 0x32, 0x33, 0x34, 0x35, 0x36, 0x37, 0x38, 0x39] = 0xF4 := by decide +kernel

/-! ### MSG.INIT, MSG.PACKV, MSG.PACKT (R90 to R96) -/

/-- V-M1. -/
theorem test_init : seen (State.slot · 1) (exec (.msgInit 1 0xFF 6 .none)
    (ready (slotOf 7 3 .crc8 #v[0x11, 0x22, 0x33, 0, 0, 0, 0, 0] 9) [])) =
      some (some (slotOf 0xFF 6 .none #v[0, 0, 0, 0, 0, 0, 0, 0] 0)) := by decide
/-- V-M2. -/
theorem test_init_too_long : exec (.msgInit 0 1 9 .none) State.reset =
    .next { State.reset with responses := [⟨.invalidConfig, none⟩] } := rfl
/-- V-M3. -/
theorem test_packv_order : seen (fun t => (t.slot 1).map Slot.payload) (exec (.msgPackv 1 2 [0x1234, 0xABCD])
    (ready (slotOf 0 8 .none #v[0, 0, 0, 0, 0, 0, 0, 0] 0) [])) =
      some (some #v[0x34, 0x12, 0xCD, 0xAB, 0, 0, 0, 0]) := by decide
/-- V-M16: 64 elements of 4 bytes do not wrap to 0 bytes. -/
theorem test_packv_no_wrap : seen State.responses (exec (.msgPackv 1 4 (List.replicate 64 1))
    (ready (slotOf 0 8 .none #v[0, 0, 0, 0, 0, 0, 0, 0] 0) [])) = some [⟨.invalidConfig, none⟩] := by decide +kernel
/-- V-M8, then V-M12's overwrite of what is there. -/
theorem test_packt : seen (fun t => (t.slot 1).map Slot.payload) (exec (.msgPackt 1 [0x74, 0x65])
    (ready (slotOf 0 6 .none #v[1, 2, 3, 4, 5, 6, 7, 8] 0) [])) = some (some #v[0x74, 0x65, 3, 4, 5, 6, 7, 8]) := by decide
/-- V-M11. -/
theorem test_packt_capacity : seen State.responses (exec (.msgPackt 1 [1, 2, 3, 4, 5, 6, 7])
    (ready (slotOf 0 8 .crc8 #v[0, 0, 0, 0, 0, 0, 0, 0] 0) [])) = some [⟨.invalidConfig, none⟩] := by decide

/-! ### XCV.BEGIN, XCV.GETFAULT (R100 to R103) -/

/-- V-X2. -/
theorem test_begin : seen (fun t => (t.init, t.begun, t.responses)) (exec (.xcvBegin ⟨7⟩) State.reset) =
    some (true, [⟨7⟩], [⟨.ok, none⟩]) := by decide
/-- V-X3: `FAULT` stays. -/
theorem test_begin_again : seen (fun t => (t.init, t.fault)) (exec (.xcvBegin ⟨7⟩)
    { State.reset with init := true, fault := .timeout }) = some (true, .timeout) := by decide
/-- V-X4, V-X5. -/
theorem test_getfault : seen State.responses (exec .xcvGetfault { State.reset with fault := .crcMismatch }) =
      some [⟨.ok, some 3⟩] ∧
    seen State.responses (exec .xcvGetfault { State.reset with fault := .missingEndDelimiter }) =
      some [⟨.ok, some 4⟩] := by decide

/-! ### XCV.SEND (R105 to R113) -/

/-- V-S3: 19 bytes, little-endian header. -/
theorem test_send_frame : seen State.txq (exec (.xcvSend 1 0xA1B2C3D4)
    (ready (slotOf 0x1FFFFFFF 8 .none #v[1, 2, 3, 4, 5, 6, 7, 8] 0) [])) =
      some [0xAA, 0xD4, 0xC3, 0xB2, 0xA1, 0x08, 0xFF, 0xFF, 0xFF, 0x1F, 1, 2, 3, 4, 5, 6, 7, 8, 0xBB] := by decide
/-- V-S8: the frame carries the counter before the increment, which wraps. -/
theorem test_send_counter_wrap : seen (fun t => (t.txq.drop 10, (t.slot 1).map Slot.ctr)) (exec (.xcvSend 1 0)
    (ready (slotOf 0 2 .crc8 #v[0, 0, 0, 0, 0, 0, 0, 0] 0xFF) [])) = some ([0xFF, 0x00, 0xBB], some 0x00) := by decide
/-- V-T3: counter and checksum in the payload and on the wire. -/
theorem test_send_t07 : seen (fun t => (t.txq, t.slot 1)) (sendFrame (withT07 false) 1 0x12345678
    (ready (slotOf 0x7E0 6 .crc8 #v[0xDE, 0xAD, 0xBE, 0xEF, 0, 0, 0, 0] 7) [])) =
      some ([0xAA, 0x78, 0x56, 0x34, 0x12, 0x06, 0xE0, 0x07, 0, 0, 0xDE, 0xAD, 0xBE, 0xEF, 0x07, 0xCA, 0xBB],
        some (slotOf 0x7E0 6 .crc8 #v[0xDE, 0xAD, 0xBE, 0xEF, 0x07, 0xCA, 0, 0] 8)) := by decide +kernel
/-- V-T7: the other value of `CRC_COVERS_COUNTER`. -/
theorem test_send_t07_covers : seen (fun t => t.txq.drop 14) (sendFrame (withT07 true) 1 0x12345678
    (ready (slotOf 0x7E0 6 .crc8 #v[0xDE, 0xAD, 0xBE, 0xEF, 0, 0, 0, 0] 7) [])) = some [0x07, 0x6D, 0xBB] := by decide +kernel

/-- R48: what arrives and passes between two byte writes is there when the send ends; its end is the turn after the last
byte, and the move after that is still to come. -/
theorem test_send_environment_between_bytes : seen (fun t => (t.rxq, t.clk, t.env, t.txq.length)) (exec (.xcvSend 1 0)
    { ready (slotOf 0 0 .none #v[0, 0, 0, 0, 0, 0, 0, 0] 0) [0x11] with
      env := [.block, .arrive 0x22, .block, .advance 3] ++ List.replicate 9 .block ++ [.arrive 0x33, .block, .arrive 0x44] }) =
      some ([0x11, 0x22, 0x33], 3, [.arrive 0x44], 11) := by decide
/-- R163: a frame cut short after two bytes, with no response. -/
theorem test_send_cut_short : seen (fun t => (t.txq, t.init, t.slot 1, t.responses)) (exec (.xcvSend 1 0x07)
    { ready (slotOf 0x7E0 6 .crc8 #v[1, 2, 3, 4, 5, 6, 7, 8] 9) [] with env := [.block, .block, .reset] }) =
      some ([0xAA, 0x07], false, some (slotOf 0 0 .none #v[0, 0, 0, 0, 0, 0, 0, 0] 0), []) := by decide

/-! ### XCV.RECV (R115 to R136) -/

/-- V-R11: a `0xBB` in the payload, a dropped byte, a late delimiter. -/
theorem test_recv_late_delimiter : seen received (exec (.xcvRecv 1 100) (ready (slotOf 0 0 .none #v[0, 0, 0, 0, 0, 0, 0, 0] 0)
    [0xAA, 0, 0, 0, 0, 2, 1, 0, 0, 0, 0x5A, 0xBB, 0, 0xBB, 0x77])) =
      some (some (slotOf 1 2 .none #v[0x5A, 0xBB, 0, 0, 0, 0, 0, 0] 0), .none, [0x77], [⟨.ok, none⟩]) := by decide
/-- V-R8: a stall at window byte 11, here after 20 milliseconds. -/
theorem test_recv_timeout : seen received (exec (.xcvRecv 1 20)
    { ready (slotOf 0xCAFEF00D 5 .none #v[0, 0, 0, 0, 0, 0, 0, 0] 0)
        [0xAA, 1, 2, 3, 4, 3, 0x11, 0x22, 0x33, 0x44, 0xA1, 0xA2] with
      env := List.replicate 11 .block ++ [.advance 19, .block, .advance 1, .block] }) =
    some (some { slotOf 0x44332211 3 .none #v[0xA1, 0xA2, 0, 0, 0, 0, 0, 0] 0 with ts := 0x04030201 }, .timeout, [],
      [⟨.fail, none⟩]) := by decide
/-- V-T4. -/
theorem test_recv_t07 : seen received (receiveFrame (withT07 false) 1 10 (ready (slotOf 0 0 .crc8 #v[0, 0, 0, 0, 0, 0, 0, 0] 0)
    [0xAA, 0x78, 0x56, 0x34, 0x12, 0x06, 0xE0, 0x07, 0, 0, 0xDE, 0xAD, 0xBE, 0xEF, 0x07, 0xCA, 0xBB])) =
      some (some { slotOf 0x7E0 6 .crc8 #v[0xDE, 0xAD, 0xBE, 0xEF, 0x07, 0xCA, 0, 0] 7 with ts := 0x12345678, crc := 0xCA },
        .none, [], [⟨.ok, none⟩]) := by decide +kernel
/-- V-T5: computed `DC`, received `CA`. -/
theorem test_recv_t07_mismatch : seen received (receiveFrame (withT07 false) 1 10
    (ready (slotOf 0 0 .crc8 #v[0, 0, 0, 0, 0, 0, 0, 0] 0)
      [0xAA, 0x78, 0x56, 0x34, 0x12, 0x06, 0xE0, 0x07, 0, 0, 0xDF, 0xAD, 0xBE, 0xEF, 0x07, 0xCA, 0xBB])) =
      some (some { slotOf 0x7E0 6 .crc8 #v[0xDF, 0xAD, 0xBE, 0xEF, 0x07, 0xCA, 0, 0] 7 with ts := 0x12345678, crc := 0xDC },
        .crcMismatch, [], [⟨.fail, none⟩]) := by decide +kernel
/-- A receive that the schedule leaves waiting goes on by rows of R131: window byte 3 of V-R6. -/
theorem test_row_fold : seen (fun t => ((t.slot 1).map Slot.ts, t.rx.i)) (step
    { waiting { slotOf 0 0 .none #v[0, 0, 0, 0, 0, 0, 0, 0] 0 with ts := 0x0304DEAD } 2 100 [] with env := [] }) =
      some (some 0x0304DEAD, 2) ∧
    seen (fun t => ((t.slot 1).map Slot.ts, t.rx.i)) (step
      (waiting { slotOf 0 0 .none #v[0, 0, 0, 0, 0, 0, 0, 0] 0 with ts := 0x0304DEAD } 2 100 [0x02])) =
      some (some 0x020304DE, 3) := by decide

/-! ### Witnesses: every statement's hypotheses can be met

One theorem for each statement with hypotheses; a conjunct for each of its clauses, at the ends of its ranges. -/

/-- A slot in `None` mode and one in `CRC8` mode, with something in every field. -/
def noneSlot : Slot := { slotOf 0x7E0 8 .none #v[1, 2, 3, 4, 5, 6, 7, 8] 0xFF with ts := 0xDEADBEEF, crc := 0x44 }
def crcSlot : Slot := { noneSlot with crcMode := .crc8 }

/-- The same with another length. -/
def noneOf (len : Byte) : Slot := { noneSlot with len := len }
def crcOf (len : Byte) : Slot := { crcSlot with len := len }

/-- A block ready to send slot 1, with a schedule in which a byte arrives between two byte writes and a reset lands right
after a send of `n` turns. -/
def sending (sl : Slot) (n : Nat) : State :=
  { ready sl [] with env := .block :: .arrive 0x5A :: .advance 9 :: List.replicate (n - 1) .block ++ [.reset, .block] }

theorem witness_StepRunsTheDecodedCommand : ∃ (s : State) (c : Command) (cs : List Command) (i : Instr),
    s.rx.state = .idle ∧ s.port = c :: cs ∧ (s.env = [] ∨ ∃ e, s.env = .block :: e) ∧ decode c = .ok i :=
  ⟨State.reset.withFetchWord 8 0x06, tableCommand 0x06, [], .xcvRecv 0 0, rfl, rfl, .inr ⟨[], rfl⟩, rfl⟩

theorem witness_ReservedCodeIsRejected : ∃ (s : State) (c : Command) (cs : List Command),
    s.rx.state = .idle ∧ s.port = c :: cs ∧ (s.env = [] ∨ ∃ e, s.env = .block :: e) ∧ 8 ≤ c.op :=
  ⟨{ State.reset with port := [{ op := 0xFF }, { op := 0x00 }] }, { op := 0xFF }, [{ op := 0x00 }], rfl, rfl, .inl rfl,
    by decide⟩

theorem witness_EnvironmentMovesTouchTheirStreamOnly :
    (∃ (s : State) (b : Byte) (e : List Move), s.env = .arrive b :: e) ∧
    (∃ (s : State) (ms : Word32) (e : List Move), s.env = .advance ms :: e) :=
  ⟨⟨{ ready noneSlot [] with env := [.arrive 0xAA] }, 0xAA, [], rfl⟩,
    ⟨{ ready noneSlot [] with env := [.advance 0xFFFFFFFF] }, 0xFFFFFFFF, [], rfl⟩⟩

/-- Both a step that leaves the receive in flight and one that ends it. -/
theorem witness_BusyPortAcceptsNothing :
    (∃ s t : State, s.rx.state ≠ .idle ∧ s.env.head? ≠ some .reset ∧ step s = .next t ∧ t.rx.state ≠ .idle) ∧
    (∃ s t : State, s.rx.state ≠ .idle ∧ s.env.head? ≠ some .reset ∧ step s = .next t ∧ t.rx.state = .idle) :=
  ⟨⟨waiting noneSlot 0 5 [0x11], _, by decide, by decide, rfl, by decide⟩,
    ⟨waiting noneSlot 0 0 [], _, by decide, by decide, rfl, by decide⟩⟩

theorem witness_ResetEventLeavesTheEnvironmentAlone : ∃ (s : State) (e : List Move), s.env = .reset :: e :=
  ⟨{ waiting noneSlot 7 5 [0x11] with env := [.reset, .block] }, [.block], rfl⟩

/-- The identity has all three properties; the illustrative table has the first. -/
theorem witness_NamedTablePropertiesBuyWhatTheSpecSays :
    (TableZero id ∧ TableLinear id ∧ TableBijective id ∧ ∃ xs ys : List Byte, xs.length = ys.length ∧ xs ≠ ys) ∧
    TableZero t07 :=
  ⟨⟨rfl, fun _ _ => rfl, ⟨fun _ _ h => h, fun y => ⟨y, rfl⟩⟩, [1, 2], [3, 4], rfl, by decide⟩, (by decide +kernel : t07 0 = 0)⟩

theorem witness_InitConstructsTheSlot : ∃ (s : State) (m : Nat) (len : Byte), m < s.slots.length ∧ len ≤ 8 :=
  ⟨ready noneSlot [], 1, 8, by decide, by decide⟩

theorem witness_InitRejectsLengthAboveEight : ∃ len : Byte, 8 < len := ⟨9, by decide⟩

/-- `CRC8` mode at its capacity of 6, with a byte of an element and a byte beyond the elements. -/
theorem witness_PackvWritesElementsLittleEndian :
    ∃ (s : State) (m w : Nat) (vals : List Elem) (sl : Slot) (e i k : Nat) (v : Elem),
      s.slots[m]? = some sl ∧ w ∈ Config.packWidths ∧ vals.length * w ≤ (if sl.crcMode = .crc8 then 6 else 8) ∧
      vals[e]? = some v ∧ i < w ∧ k < Config.payloadSize ∧ vals.length * w ≤ k :=
  ⟨ready crcSlot [], 1, 2, [0x1234, 0xABCD, 1], crcSlot, 2, 1, 6, 1, rfl, by decide, by decide, rfl, by decide, by decide,
    by decide⟩

/-- The text that just fits, the one that just does not, and the missing slot. -/
theorem witness_PacktWritesRawBytes :
    (∃ (s : State) (m : Nat) (sl : Slot) (text : List Byte),
      s.slots[m]? = some sl ∧ text.length ≤ (if sl.crcMode = .crc8 then 6 else 8) ∧ text.length = 8) ∧
    (∃ (s : State) (m : Nat) (sl : Slot) (text : List Byte),
      s.slots[m]? = some sl ∧ (if sl.crcMode = .crc8 then 6 else 8) < text.length ∧ text.length = 7) ∧
    (∃ (s : State) (m : Nat), s.slots[m]? = none ∧ m = s.slots.length) :=
  ⟨⟨ready noneSlot [], 1, noneSlot, [1, 2, 3, 4, 5, 6, 7, 8], rfl, by decide, rfl⟩,
    ⟨ready crcSlot [], 1, crcSlot, [1, 2, 3, 4, 5, 6, 7], rfl, by decide, rfl⟩, ⟨ready noneSlot [], 2, rfl, rfl⟩⟩

/-- `MSG.PACKV` over and at the capacity, in both modes; `MSG.PACKT` is the other kind of pack. -/
theorem witness_PackCapacityIsSixOrEight :
    (∃ (s : State) (m : Nat) (sl : Slot) (i : Instr) (bytes : List Byte), s.slots[m]? = some sl ∧ Packs m bytes i ∧
      (sl.crcMode = .crc8 ∧ 6 < bytes.length ∨ 8 < bytes.length)) ∧
    (∃ (s : State) (m : Nat) (sl : Slot) (i : Instr) (bytes : List Byte), s.slots[m]? = some sl ∧ Packs m bytes i ∧
      ¬(sl.crcMode = .crc8 ∧ 6 < bytes.length ∨ 8 < bytes.length)) :=
  ⟨⟨ready crcSlot [], 1, crcSlot, .msgPackv 1 8 [1], _, rfl, .inr ⟨8, [1], by decide, rfl, rfl⟩, by decide⟩,
    ⟨ready crcSlot [], 1, crcSlot, .msgPackt 1 [1, 2, 3, 4, 5, 6], _, rfl, .inl rfl, by decide⟩⟩

theorem witness_PacksOverwriteFromOffsetZero :
    ∃ (s : State) (m : Nat) (sl : Slot) (i1 i2 : Instr) (b1 b2 : List Byte),
      s.slots[m]? = some sl ∧ Packs m b1 i1 ∧ Packs m b2 i2 ∧ b1.length ≤ (if sl.crcMode = .crc8 then 6 else 8) ∧
      b2.length ≤ (if sl.crcMode = .crc8 then 6 else 8) :=
  ⟨ready noneSlot [], 1, noneSlot, .msgPackt 1 [0x74, 0x65, 0x73, 0x74], .msgPackv 1 1 [0xFF], _, _, rfl, .inl rfl,
    .inr ⟨1, [0xFF], by decide, rfl, rfl⟩, by decide, by decide⟩

theorem witness_BadOperandsAreRejected :
    (∃ w : Nat, w ∉ [1, 2, 4, 8]) ∧
    (∃ (s : State) (m : Nat) (i : Instr), s.slots.length ≤ m ∧ ∃ tmo, i = .xcvRecv m tmo) :=
  ⟨⟨3, by decide⟩, ⟨State.reset, 2, .xcvRecv 2 0, by decide, 0, rfl⟩⟩

theorem witness_GetFaultReadsTheFaultRegister :
    ∃ s0 s1 s2 s3 s4 : State, s0.fault = .none ∧ s1.fault = .timeout ∧ s2.fault = .noIncomingData ∧
      s3.fault = .crcMismatch ∧ s4.fault = .missingEndDelimiter :=
  ⟨State.reset, { State.reset with fault := .timeout }, { State.reset with fault := .noIncomingData },
    { State.reset with fault := .crcMismatch }, { State.reset with fault := .missingEndDelimiter }, rfl, rfl, rfl, rfl, rfl⟩

/-- The shortest and the longest frame, in both modes; the reset comes right after the send. -/
theorem witness_SendWritesTheFrame :
    ∀ sl ∈ [noneOf 0, noneOf 8, crcOf 2, crcOf 8], ∃ (s : State) (m : Nat),
      s.init = true ∧ s.slots[m]? = some sl ∧ sl.len ≤ 8 ∧ (sl.crcMode = .crc8 → 2 ≤ sl.len) ∧
      Uncut (12 + sl.len.toNat) s.env ∧ Move.reset ∈ s.env := by
  intro sl h
  refine ⟨sending sl (12 + sl.len.toNat), 1, rfl, rfl, ?_⟩
  revert sl
  decide

theorem witness_SendChangesCounterAndReservedBytesOnly :
    (∃ (s : State) (m : Nat) (sl : Slot), s.init = true ∧ s.slots[m]? = some sl ∧ sl.len ≤ 8 ∧
      (sl.crcMode = .crc8 → 2 ≤ sl.len) ∧ Uncut (12 + sl.len.toNat) s.env ∧ sl.crcMode = .none) ∧
    (∃ (s : State) (m : Nat) (sl : Slot), s.init = true ∧ s.slots[m]? = some sl ∧ sl.len ≤ 8 ∧
      (sl.crcMode = .crc8 → 2 ≤ sl.len) ∧ Uncut (12 + sl.len.toNat) s.env ∧ sl.crcMode = .crc8) :=
  ⟨⟨sending (noneOf 0) 12, 1, noneOf 0, rfl, rfl, by decide, by decide, by decide, rfl⟩,
    ⟨sending (crcOf 2) 14, 1, crcOf 2, rfl, rfl, by decide, by decide, by decide, rfl⟩⟩

/-- An accepted send, with a counter that wraps, and the two rejected kinds. -/
theorem witness_SendIncrementsTheCounter :
    (∃ (s : State) (m : Nat) (sl : Slot), s.slots[m]? = some sl ∧ sl.len ≤ 8 ∧
      (s.init = true ∧ (sl.crcMode = .crc8 → 2 ≤ sl.len)) ∧ Uncut (12 + sl.len.toNat) s.env ∧ sl.crcMode = .crc8 ∧
      sl.ctr = 0xFF) ∧
    (∃ (s : State) (m : Nat) (sl : Slot), s.slots[m]? = some sl ∧ sl.len ≤ 8 ∧
      ¬(s.init = true ∧ (sl.crcMode = .crc8 → 2 ≤ sl.len))) :=
  ⟨⟨sending (crcOf 8) 20, 1, crcOf 8, rfl, by decide, by decide, by decide, rfl, rfl⟩,
    ⟨ready (crcOf 1) [], 1, crcOf 1, rfl, by decide, by decide⟩⟩

theorem witness_SendIsRejectedWithoutEffect :
    (∃ (s : State) (m : Nat) (sl : Slot), s.slots[m]? = some sl ∧ s.init = false) ∧
    (∃ (s : State) (m : Nat) (sl : Slot), s.slots[m]? = some sl ∧ sl.crcMode = .crc8 ∧ sl.len < 2) :=
  ⟨⟨State.reset, 1, Slot.reset, rfl, rfl⟩, ⟨ready (crcOf 1) [], 1, crcOf 1, rfl, rfl, by decide⟩⟩

theorem witness_SendOfEmptyDataIsTableIndependent : ∃ (s : State) (m : Nat) (sl : Slot),
    s.init = true ∧ s.slots[m]? = some sl ∧ sl.crcMode = .crc8 ∧ sl.len = 2 ∧ Uncut 14 s.env :=
  ⟨sending (crcOf 2) 14, 1, crcOf 2, rfl, rfl, rfl, rfl, by decide⟩

/-- The send's last turn is scheduled, with moves after it; and it is not: the schedule ends one turn too early. -/
theorem witness_SendTakesATurnForEachByte :
    (∃ (s : State) (m : Nat) (sl : Slot) (ran rem : List Move), s.init = true ∧ s.slots[m]? = some sl ∧ sl.len ≤ 8 ∧
      (sl.crcMode = .crc8 → 2 ≤ sl.len) ∧ s.env = ran ++ .block :: rem ∧ Move.reset ∉ ran ∧
      turns ran = 11 + sl.len.toNat) ∧
    (∃ (s : State) (m : Nat) (sl : Slot), s.init = true ∧ s.slots[m]? = some sl ∧ sl.len ≤ 8 ∧
      (sl.crcMode = .crc8 → 2 ≤ sl.len) ∧ Move.reset ∉ s.env ∧ turns s.env = 11 + sl.len.toNat) :=
  ⟨⟨sending (noneOf 8) 20, 1, noneOf 8, .block :: .arrive 0x5A :: .advance 9 :: List.replicate 18 .block, [.reset, .block],
      rfl, rfl, by decide, by decide, rfl, by decide, by decide⟩,
    ⟨{ ready (crcOf 2) [] with env := List.replicate 13 .block ++ [.arrive 1] }, 1, crcOf 2, rfl, rfl, by decide, by decide,
      by decide, by decide⟩⟩

/-- A reset before the first byte, in the middle of a frame, and after the last byte. -/
theorem witness_ResetCutsTheSendShort :
    ∀ n ∈ [0, 5, 19], ∃ (s : State) (m : Nat) (sl : Slot) (ran rem : List Move), s.init = true ∧ s.slots[m]? = some sl ∧
      sl.len ≤ 8 ∧ (sl.crcMode = .crc8 → 2 ≤ sl.len) ∧ s.env = ran ++ .reset :: rem ∧ Move.reset ∉ ran ∧
      turns ran ≤ 11 + sl.len.toNat := by
  intro n h
  refine ⟨{ ready (crcOf 8) [] with env := .arrive 7 :: List.replicate n .block ++ .reset :: [.block] }, 1, crcOf 8,
    .arrive 7 :: List.replicate n .block, [.block], rfl, rfl, by decide, by decide, rfl, ?_⟩
  revert n
  decide

theorem witness_ReceiveBeforeBeginIsRejected : ∃ s : State, s.init = false := ⟨State.reset, rfl⟩

theorem witness_NoIncomingDataOnEmptyStreamOrStrayByte :
    (∃ (s : State) (m : Nat), s.init = true ∧ m < s.slots.length ∧ s.rxq = []) ∧
    (∃ (s : State) (m : Nat), s.init = true ∧ m < s.slots.length ∧ ∃ b q, s.rxq = b :: q ∧ b ≠ 0xAA) :=
  ⟨⟨ready noneSlot [], 1, rfl, by decide, rfl⟩, ⟨ready noneSlot [0x55, 0xAA], 1, rfl, by decide, 0x55, [0xAA], rfl, by decide⟩⟩

/-- No payload and the delimiter as late as can be; a full payload from a length byte above 8. -/
theorem witness_ReceiveRebuildsTheFrame :
    (∃ (s : State) (m : Nat) (sl : Slot) (ts id : Word32) (l : Byte) (pl gap rest : List Byte),
      s.init = true ∧ s.slots[m]? = some sl ∧ sl.crcMode = .none ∧ Move.reset ∉ s.env ∧ pl.length = min l.toNat 8 ∧
      (0xBB : Byte) ∉ gap ∧ pl.length + gap.length ≤ 8 ∧
      s.rxq = 0xAA :: (wireHeader ts l id ++ pl ++ gap ++ 0xBB :: rest) ∧ l = 0 ∧ gap.length = 8) ∧
    (∃ (s : State) (m : Nat) (sl : Slot) (ts id : Word32) (l : Byte) (pl gap rest : List Byte),
      s.init = true ∧ s.slots[m]? = some sl ∧ sl.crcMode = .none ∧ Move.reset ∉ s.env ∧ pl.length = min l.toNat 8 ∧
      (0xBB : Byte) ∉ gap ∧ pl.length + gap.length ≤ 8 ∧
      s.rxq = 0xAA :: (wireHeader ts l id ++ pl ++ gap ++ 0xBB :: rest) ∧ l = 10) :=
  ⟨⟨ready noneSlot (0xAA :: (wireHeader 1 0 2 ++ [] ++ List.replicate 8 0 ++ 0xBB :: [0x77])), 1, noneSlot, 1, 2, 0, [],
      List.replicate 8 0, [0x77], rfl, rfl, rfl, by decide, by decide, by decide, by decide, rfl, rfl, rfl⟩,
    ⟨ready noneSlot (0xAA :: (wireHeader 1 10 2 ++ [0xBB, 1, 2, 3, 4, 5, 6, 7] ++ [] ++ 0xBB :: [])), 1, noneSlot, 1, 2, 10,
      [0xBB, 1, 2, 3, 4, 5, 6, 7], [], [], rfl, rfl, rfl, by decide, by decide, by decide, by decide, rfl, rfl⟩⟩

/-- No data byte, and six of them. -/
theorem witness_ReceiveVerifiesTheChecksum :
    ∀ data ∈ [[], [1, 2, 3, 4, 5, 6]], ∃ (s : State) (m : Nat) (sl : Slot) (ts id : Word32) (l c k : Byte)
      (gap rest : List Byte), s.init = true ∧ s.slots[m]? = some sl ∧ sl.crcMode = .crc8 ∧ Move.reset ∉ s.env ∧
        data.length + 2 = min l.toNat 8 ∧ (0xBB : Byte) ∉ gap ∧ data.length + 2 + gap.length ≤ 8 ∧
        s.rxq = 0xAA :: (wireHeader ts l id ++ (data ++ [c, k]) ++ gap ++ 0xBB :: rest) := by
  intro data h
  refine ⟨ready crcSlot (0xAA :: (wireHeader 1 (BitVec.ofNat 8 (data.length + 2)) 2 ++ (data ++ [9, 0]) ++ [] ++ 0xBB :: [])),
    1, crcSlot, 1, 2, BitVec.ofNat 8 (data.length + 2), 9, 0, [], [], rfl, rfl, rfl, List.not_mem_nil, ?_, by decide, ?_, rfl⟩
  all_goals
    revert data
    decide

theorem witness_ReceiveWithoutRoomForChecksumFails :
    ∀ pl ∈ [[], [9]], ∃ (s : State) (m : Nat) (sl : Slot) (ts id : Word32) (l : Byte) (gap rest : List Byte),
      s.init = true ∧ s.slots[m]? = some sl ∧ sl.crcMode = .crc8 ∧ Move.reset ∉ s.env ∧ pl.length = l.toNat ∧ l < 2 ∧
      (0xBB : Byte) ∉ gap ∧ pl.length + gap.length ≤ 8 ∧
      s.rxq = 0xAA :: (wireHeader ts l id ++ pl ++ gap ++ 0xBB :: rest) := by
  intro pl h
  refine ⟨ready crcSlot (0xAA :: (wireHeader 1 (BitVec.ofNat 8 pl.length) 2 ++ pl ++ [] ++ 0xBB :: [])),
    1, crcSlot, 1, 2, BitVec.ofNat 8 pl.length, [], [], rfl, rfl, rfl, List.not_mem_nil, ?_, ?_, by decide, ?_, rfl⟩
  all_goals
    revert pl
    decide

/-- A full payload with one search index, and no payload with nine. -/
theorem witness_MissingEndDelimiterAfterTheWholeWindow :
    ∀ pl ∈ [[1, 2, 3, 4, 5, 6, 7, 8], []], ∃ (s : State) (m : Nat) (sl : Slot) (ts id : Word32) (l : Byte)
      (gap rest : List Byte), s.init = true ∧ s.slots[m]? = some sl ∧ Move.reset ∉ s.env ∧ pl.length = min l.toNat 8 ∧
        (0xBB : Byte) ∉ gap ∧ pl.length + gap.length = 9 ∧
        s.rxq = 0xAA :: (wireHeader ts l id ++ pl ++ gap ++ rest) := by
  intro pl h
  refine ⟨ready crcSlot (0xAA :: (wireHeader 1 (BitVec.ofNat 8 pl.length) 2 ++ pl ++ List.replicate (9 - pl.length) 0xBA ++
    [0xBB])), 1, crcSlot, 1, 2, BitVec.ofNat 8 pl.length, List.replicate (9 - pl.length) 0xBA, [0xBB], rfl, rfl,
    List.not_mem_nil, ?_, ?_, ?_, rfl⟩
  all_goals
    revert pl
    decide

/-- A stall at the first window byte, inside the timestamp, inside the payload, and at the last window byte. -/
theorem witness_TimeoutKeepsThePartialSlot :
    ∀ ws ∈ [[], [4, 3, 2], [1, 2, 3, 4, 3, 0x11, 0x22, 0x33, 0x44, 0xA1, 0xBB], 1 :: 2 :: List.replicate 15 8],
      ∃ (s : State) (m : Nat) (tmo ms : Word32) (sl : Slot), s.init = true ∧ s.slots[m]? = some sl ∧ ws.length ≤ 17 ∧
        tmo ≤ ms ∧
        (∀ l j b, ws[4]? = some l → 9 + min l.toNat 8 ≤ j → ws[j]? = some b → b ≠ (0xBB : Byte)) ∧
        s.rxq = 0xAA :: ws ∧ s.env = List.replicate ws.length .block ++ [.advance ms] := by
  intro ws h
  refine ⟨{ ready noneSlot (0xAA :: ws) with env := List.replicate ws.length .block ++ [.advance 20] }, 1, 20, 20, noneSlot,
    rfl, rfl, ?_, by decide, ?_, rfl, rfl⟩
  · revert ws
    decide
  · intro l j b hl hj hb
    have hlt : j < ws.length := (List.getElem?_eq_some_iff.1 hb).1
    simp only [List.mem_cons, List.not_mem_nil, or_false] at h
    rcases h with rfl | rfl | rfl | rfl
    · cases hl
    · cases hl
    · obtain rfl : 3 = l := by simpa using hl
      simp at hj hlt
      omega
    · obtain rfl : 8 = l := by simpa using hl
      simp at hj hlt
      omega

theorem witness_WaitingReceiveMakesNoProgress : ∃ s : State,
    s.rx.state = .readFixedWindow ∧ s.rxq = [] ∧ s.env = [] ∧ s.clk - s.rx.t0 < s.rx.tmo :=
  ⟨waiting noneSlot 17 1 [], rfl, rfl, rfl, by decide⟩

/-- The clock has wrapped: started at `2^32 - 1`, now 0, budget 1. -/
theorem witness_SpentBudgetEndsTheWait : ∃ s : State,
    s.rx.state = .readFixedWindow ∧ s.rxq = [] ∧ s.env = [] ∧ s.rx.tmo ≤ s.clk - s.rx.t0 ∧ s.clk < s.rx.t0 :=
  ⟨{ waiting noneSlot 0 1 [] with
    rx := { state := .readFixedWindow, i := 0, t0 := 0xFFFFFFFF, tmo := 1, found := false, m := 1 } },
    rfl, rfl, rfl, by decide, by decide⟩

/-- The hypotheses hold at every window index, length, byte and mode of this list. -/
theorem windowIndex_met (sl : Slot) (hl : sl.len ≤ 8) (i : Nat) (hi : i ≤ 17) (b : Byte) : ∃ (s : State) (q : List Byte),
    s.rx.state = .readFixedWindow ∧ s.rxq = b :: q ∧ s.env = [] ∧ s.slots[s.rx.m]? = some sl ∧ sl.len ≤ 8 ∧
      s.rx.i = BitVec.ofNat 5 i ∧ i ≤ 17 :=
  ⟨waiting sl (BitVec.ofNat 5 i) 0 [b], [], rfl, rfl, rfl, rfl, hl, rfl, hi⟩

/-- One input for each clause, at the ends of its range. -/
theorem witness_WindowIndexDecidesTheUseOfAByte :
    ∀ x ∈ [(noneSlot, 0, 0xBB), (noneSlot, 3, 0x00), (noneSlot, 4, 0xFF), (noneSlot, 5, 0xAA), (noneSlot, 8, 0xBB),
      (noneOf 8, 9, 0xBB), (noneOf 8, 16, 0xBB), (noneOf 1, 9, 0x00), (noneOf 0, 9, 0xBA), (noneOf 7, 16, 0x00),
      (crcOf 0, 17, 0xBA), (crcOf 8, 17, 0x00), (noneOf 0, 9, 0xBB), ((noneOf 8, 17, 0xBB) : Slot × Nat × Byte)],
      ∃ (s : State) (q : List Byte), s.rx.state = .readFixedWindow ∧ s.rxq = x.2.2 :: q ∧ s.env = [] ∧
        s.slots[s.rx.m]? = some x.1 ∧ x.1.len ≤ 8 ∧ s.rx.i = BitVec.ofNat 5 x.2.1 ∧ x.2.1 ≤ 17 :=
  fun x h => windowIndex_met x.1 (by revert x; decide) x.2.1 (by revert x; decide) x.2.2

theorem witness_FourFoldsRebuildTheLittleEndianValue :
    ∃ (bytes : List Byte) (j : Nat) (b : Byte), bytes.length < 4 ∧ bytes[j]? = some b :=
  ⟨[4, 3, 2], 2, 2, by decide, rfl⟩

theorem witness_ReceiveConsumesAtMostNineteenBytes : ∃ (s t : State) (m : Nat) (tmo : Word32),
    Move.reset ∉ s.env ∧ exec (.xcvRecv m tmo) s = .next t :=
  ⟨ready noneSlot [0xAA, 1, 2], _, 1, 0, by decide, rfl⟩

theorem witness_BlockingProcedureIsTheStateMachine : ∃ (s : State) (m : Nat), s.init = true ∧ m < s.slots.length :=
  ⟨{ ready noneSlot [0xAA, 1, 2] with env := [.block, .arrive 7, .advance 3] }, 1, rfl, by decide⟩

/-- A sender and a receiver in `CRC8` mode, and a `None`-mode receiver of the longest frame. -/
theorem witness_SentFrameIsReceivedAsSent :
    (∃ (s r : State) (a b : Nat) (sl sb : Slot), s.init = true ∧ s.slots[a]? = some sl ∧ sl.len ≤ 8 ∧
      (sl.crcMode = .crc8 → 2 ≤ sl.len) ∧ Uncut (12 + sl.len.toNat) s.env ∧ r.init = true ∧ r.slots[b]? = some sb ∧
      (sb.crcMode = .none ∨ sb.crcMode = sl.crcMode) ∧ Move.reset ∉ r.env ∧ sb.crcMode = .crc8) ∧
    (∃ (s r : State) (a b : Nat) (sl sb : Slot), s.init = true ∧ s.slots[a]? = some sl ∧ sl.len ≤ 8 ∧
      (sl.crcMode = .crc8 → 2 ≤ sl.len) ∧ Uncut (12 + sl.len.toNat) s.env ∧ r.init = true ∧ r.slots[b]? = some sb ∧
      (sb.crcMode = .none ∨ sb.crcMode = sl.crcMode) ∧ Move.reset ∉ r.env ∧ sl.len = 8) :=
  ⟨⟨sending (crcOf 2) 14, { ready crcSlot [] with env := [.arrive 0, .block] }, 1, 1, crcOf 2, crcSlot, rfl, rfl, by decide,
      by decide, by decide, rfl, rfl, .inr rfl, by decide, rfl⟩,
    ⟨sending (crcOf 8) 20, ready noneSlot [], 1, 1, crcOf 8, noneSlot, rfl, rfl, by decide, by decide, by decide, rfl, rfl, .inl rfl,
      by decide, rfl⟩⟩

theorem witness_ClockCanEndEveryWait : ∃ s : State, s.rx.state = .readFixedWindow ∧ s.rxq = [] :=
  ⟨waiting noneSlot 17 0xFFFFFFFF [], rfl, rfl⟩

theorem witness_ReceiveEndsOnceTheWindowIsThere : ∃ (s : State) (m : Nat),
    s.init = true ∧ m < s.slots.length ∧ 19 ≤ s.rxq.length ∧ Move.reset ∉ s.env :=
  ⟨{ ready noneSlot (List.replicate 19 0xAA) with env := [.advance 9] }, 1, rfl, by decide, by decide, by decide⟩

theorem witness_InvariantHoldsAfterReset : ∃ n : Nat, 1 ≤ n := ⟨1, le_refl _⟩

/-- A receive in flight at the last window index meets the invariant. -/
theorem waiting_inv : (waiting noneSlot 17 5 [0xBB]).Inv where
  slots_exist := by decide
  len_le := by decide
  rx_slot := by decide
  rx_init := by decide
  rx_index := by decide
  rx_found := by decide

theorem witness_EveryStepKeepsTheInvariant : ∃ s t : State, s.Inv ∧ step s = .next t :=
  ⟨waiting noneSlot 17 5 [0xBB], _, waiting_inv, rfl⟩

theorem witness_InvariantStatesNeverStop : ∃ s : State, s.Inv := ⟨waiting noneSlot 17 5 [0xBB], waiting_inv⟩

/-- A send, and a receive that is rejected. -/
theorem witness_OnlyReceiveWritesTheFaultRegister :
    (∃ (i : Instr) (s t : State), (∀ m tmo, i = .xcvRecv m tmo → s.init = false ∨ s.slots.length ≤ m) ∧
      (∀ m ts, i = .xcvSend m ts → Move.reset ∉ s.env) ∧ exec i s = .next t ∧ s.fault = .timeout) ∧
    (∃ (i : Instr) (s t : State), (∀ m tmo, i = .xcvRecv m tmo → s.init = false ∨ s.slots.length ≤ m) ∧
      (∀ m ts, i = .xcvSend m ts → Move.reset ∉ s.env) ∧ exec i s = .next t ∧ ∃ m tmo, i = .xcvRecv m tmo) :=
  ⟨⟨.xcvSend 1 0, { ready noneSlot [] with fault := .timeout, env := [.block, .arrive 1] }, _, nofun,
      fun _ _ _ => by decide, rfl, rfl⟩,
    ⟨.xcvRecv 2 0, { ready noneSlot [0xAA] with env := [.reset] }, _, fun m tmo h => (by cases h; exact .inr (by decide)),
      nofun, rfl, 2, 0, rfl⟩⟩

theorem witness_OnlyResetClearsInit : ∃ s t : State, s.init = true ∧ Move.reset ∉ s.env ∧ step s = .next t :=
  ⟨waiting noneSlot 9 5 [], _, rfl, by decide, rfl⟩

theorem witness_OnlyInitWritesTheCrcMode : ∃ (i : Instr) (s t : State) (j : Nat),
    (∀ id len mode, i ≠ .msgInit j id len mode) ∧ Move.reset ∉ s.env ∧ exec i s = .next t :=
  ⟨.msgInit 0 1 8 .crc8, ready noneSlot [], _, 1, nofun, by decide, rfl⟩

/-- An operation on another slot; a pack, a send and a receive of the slot. -/
theorem witness_SlotFieldsChangeOnlyAsTheMatrixSays :
    (∃ (i : Instr) (s t : State) (j : Nat), Move.reset ∉ s.env ∧ exec i s = .next t ∧
      (∀ id len mode, i ≠ .msgInit j id len mode) ∧ (∀ w vals, i ≠ .msgPackv j w vals) ∧
      (∀ text, i ≠ .msgPackt j text) ∧ (∀ ts, i ≠ .xcvSend j ts) ∧ ∀ tmo, i ≠ .xcvRecv j tmo) ∧
    ∀ i ∈ [.msgPackv 1 1 [7], .xcvSend 1 0, .xcvRecv 1 0], ∃ (s t : State) (sl sl' : Slot), Move.reset ∉ s.env ∧
      exec i s = .next t ∧ s.slots[1]? = some sl ∧ t.slots[1]? = some sl' := by
  refine ⟨⟨.xcvSend 1 0, ready noneSlot [], _, 0, by decide, rfl, nofun, nofun,
    nofun, nofun, nofun⟩, fun i h => ?_⟩
  simp only [List.mem_cons, List.not_mem_nil, or_false] at h
  rcases h with rfl | rfl | rfl <;> exact ⟨ready noneSlot [0xAA, 1], _, noneSlot, _, by decide, rfl, rfl, rfl⟩

/-- An operation without a transport, and a send. -/
theorem witness_OnlyReceiveTouchesTheReceiveSide :
    (∃ (i : Instr) (s t : State), exec i s = .next t ∧ (∀ m tmo, i ≠ .xcvRecv m tmo) ∧ ∀ m ts, i ≠ .xcvSend m ts) ∧
    (∃ (i : Instr) (s t : State), exec i s = .next t ∧ (∃ m ts, i = .xcvSend m ts) ∧ Move.reset ∉ s.env ∧ s.env ≠ []) :=
  ⟨⟨.xcvBegin ⟨3⟩, { ready noneSlot [0xAA, 1] with env := [.block, .reset] }, _, rfl, nofun, nofun⟩,
    ⟨.xcvSend 1 0, { ready noneSlot [] with env := [.block, .arrive 1] }, _, rfl, ⟨1, 0, rfl⟩, by decide, by decide⟩⟩

/-- A receive that ends and one that the schedule leaves waiting. -/
theorem witness_EveryOperationGivesOneResponse :
    (∃ (i : Instr) (s t : State), s.rx.state = .idle ∧ Move.reset ∉ s.env ∧ exec i s = .next t ∧ t.rx.state = .idle) ∧
    (∃ (i : Instr) (s t : State), s.rx.state = .idle ∧ Move.reset ∉ s.env ∧ exec i s = .next t ∧ t.rx.state ≠ .idle) :=
  ⟨⟨.xcvRecv 1 0, ready noneSlot [0xAA, 1], _, rfl, by decide, rfl, by decide⟩,
    ⟨.xcvRecv 1 9, ready noneSlot [0xAA, 1], _, rfl, by decide, rfl, by decide⟩⟩

theorem witness_InvalidConfigurationHasNoEffect : ∃ (i : Instr) (s t : State) (r : Option Byte),
    exec i s = .next t ∧ t.responses = s.responses ++ [⟨.invalidConfig, r⟩] :=
  ⟨.xcvRecv 2 0, ready noneSlot [0xAA], _, none, rfl, rfl⟩

end Sys2Proof.Tests
end

section
/-! SUPPORT. What one operation, and one step, can do, as relations each tied to the model by one inversion lemma: every
statement about all operations or all steps below is a case analysis of them. -/

namespace Sys2Proof.Machine

/-- Everything operation `i` can do from `s`, by its outcomes (R72): rejected, a result byte read off the operands or the
state, a message slot written, the Transceiver begun, a frame sent or received, or a send or receive that a reset cuts off
(R163). -/
inductive OpEffect (s : State) : Instr → State → Prop
  | rejected (i : Instr) : OpEffect s i s.reject
  | computed (bytes : List Byte) :
      OpEffect s (.crc8Compute bytes) (s.respond .ok (some (crc8 Config.params.table bytes)))
  | faultRead : OpEffect s .xcvGetfault (s.respond .ok (some ((faultCode s.fault).setWidth 8)))
  | constructed {m : Nat} {id : Word32} {len : Byte} {mode : CrcMode} {sl : Slot} (hs : s.slots[m]? = some sl)
      (hl : len ≤ 8) : OpEffect s (.msgInit m id len mode) (s.setSlot m (constructSlot id len mode)).ok
  | packedValues {m w : Nat} {vals : List Elem} {sl : Slot} (P : Vector Byte Config.payloadSize)
      (hs : s.slots[m]? = some sl) : OpEffect s (.msgPackv m w vals) (s.setSlot m { sl with payload := P }).ok
  | packedText {m : Nat} {text : List Byte} {sl : Slot} (P : Vector Byte Config.payloadSize)
      (hs : s.slots[m]? = some sl) : OpEffect s (.msgPackt m text) (s.setSlot m { sl with payload := P }).ok
  | begun (cfg : TransportConfig) :
      OpEffect s (.xcvBegin cfg) ({ s with begun := s.begun ++ [cfg], init := true } : State).ok
  | sent {m : Nat} {ts : Word32} {sl : Slot} {ran rem : List Move} (hs : s.slots[m]? = some sl) (he : s.env = ran ++ rem) :
      OpEffect s (.xcvSend m ts) (s.afterSend Config.params m sl ts ran rem)
  | sendCutOff {m : Nat} {ts : Word32} {sl : Slot} {ran rem : List Move} (he : s.env = ran ++ .reset :: rem) :
      OpEffect s (.xcvSend m ts) (s.afterCutSend Config.params sl ts ran rem)
  | received {m k : Nat} {tmo : Word32} {t : State} (hi : s.init = true) (hm : m < s.slots.length)
      (hR : Received m k s t) (hE : (∃ f, Ended f s t) ∨ ∃ q, Waits (s.inWindow m tmo q) t) :
      OpEffect s (.xcvRecv m tmo) t
  | receiveCutOff {m : Nat} {tmo : Word32} {t : State} (hi : s.init = true) (hm : m < s.slots.length)
      (hc : WasCutOff s t) : OpEffect s (.xcvRecv m tmo) t

theorem execMsgInit_effect {m : Nat} {id : Word32} {len : Byte} {mode : CrcMode} {s t : State}
    (h : execMsgInit m id len mode s = .next t) : OpEffect s (.msgInit m id len mode) t := by
  obtain ⟨-, he⟩ | ⟨hl, hm, he⟩ := execMsgInit_cases m id len mode s
  · cases he.symm.trans h
    exact .rejected _
  · cases he.symm.trans h
    exact .constructed (List.getElem?_eq_getElem hm) hl

theorem execMsgPackv_effect {m w : Nat} {vals : List Elem} {s t : State} (h : execMsgPackv m w vals s = .next t) :
    OpEffect s (.msgPackv m w vals) t := by
  unfold execMsgPackv at h
  split at h
  · obtain he | ⟨sl, hs, he⟩ := packBytes_cases m (elementBytes w vals) s
    · cases he.symm.trans h
      exact .rejected _
    · cases he.symm.trans h
      exact .packedValues _ hs
  · cases h
    exact .rejected _

theorem execMsgPackt_effect {m : Nat} {text : List Byte} {s t : State} (h : execMsgPackt m text s = .next t) :
    OpEffect s (.msgPackt m text) t := by
  obtain he | ⟨sl, hs, he⟩ := packBytes_cases m text s
  · cases he.symm.trans h
    exact .rejected _
  · cases he.symm.trans h
    exact .packedText _ hs

theorem execXcvSend_effect {m : Nat} {ts : Word32} {s t : State} (h : execXcvSend m ts s = .next t) :
    OpEffect s (.xcvSend m ts) t := by
  obtain he | ⟨he, -⟩ | ⟨sl, -, hs, -, -, ran, rem, -, ⟨hran, he⟩ | ⟨hran, he⟩⟩ := sendFrame_cases Config.params s m ts
  · cases he.symm.trans h
    exact .rejected _
  · cases he.symm.trans h
  · cases he.symm.trans h
    exact .sent hs hran
  · cases he.symm.trans h
    exact .sendCutOff hran

theorem execXcvRecv_effect {m : Nat} {tmo : Word32} {s t : State} (h : execXcvRecv m tmo s = .next t) :
    OpEffect s (.xcvRecv m tmo) t := by
  obtain ⟨t', he, hcase⟩ := receiveFrame_spec Config.params m tmo s
  cases he.symm.trans h
  obtain ⟨-, rfl⟩ | ⟨hi, hm, ⟨k, -, hR, ⟨f, hf, -⟩ | ⟨-, hW⟩⟩ | hc⟩ := hcase
  · exact .rejected _
  · exact .received hi hm hR (.inl ⟨f, hf⟩)
  · exact .received hi hm hR (.inr hW)
  · exact .receiveCutOff hi hm hc

/-- The inversion lemma of `exec`. -/
theorem exec_effect {i : Instr} {s t : State} (h : exec i s = .next t) : OpEffect s i t := by
  cases i with
  | crc8Compute bytes => cases h; exact .computed bytes
  | msgInit m id len mode => exact execMsgInit_effect h
  | msgPackv m w vals => exact execMsgPackv_effect h
  | msgPackt m text => exact execMsgPackt_effect h
  | xcvBegin cfg => cases h; exact .begun cfg
  | xcvSend m ts => exact execXcvSend_effect h
  | xcvRecv m tmo => exact execXcvRecv_effect h
  | xcvGetfault => cases h; exact .faultRead

/-! ### Whose turn it is -/

theorem step_arrive {s : State} {b : Byte} {e : List Move} (h : s.env = .arrive b :: e) :
    step s = .next (({ s with env := e } : State).arrive b) := by
  simp only [step, State.turn, h]

theorem step_advance {s : State} {ms : Word32} {e : List Move} (h : s.env = .advance ms :: e) :
    step s = .next (({ s with env := e } : State).advance ms) := by
  simp only [step, State.turn, h]

theorem step_reset {s : State} {e : List Move} (h : s.env = .reset :: e) :
    step s = .next ({ s with env := e } : State).blockReset := by
  simp only [step, State.turn, h]

theorem step_block {s : State} (h : s.env = [] ∨ ∃ e, s.env = .block :: e) :
    step s = blockMove { s with env := s.env.tail } := by
  simp only [step, turn_block h]

/-- The state from which the block runs a command it accepts: the turn is off the schedule, the command has left the port. -/
abbrev State.accepting (s : State) (cs : List Command) : State := { s with port := cs, env := s.env.tail }

/-- Everything one step can do, by the agent that moves: the environment, the platform, or the block, which accepts a command
or runs a row of the parser (R48, R52, R131, R160). -/
inductive StepEffect (s : State) : State → Prop
  | arrive {b : Byte} {e : List Move} (he : s.env = .arrive b :: e) : StepEffect s (({ s with env := e } : State).arrive b)
  | advance {ms : Word32} {e : List Move} (he : s.env = .advance ms :: e) :
      StepEffect s (({ s with env := e } : State).advance ms)
  | reset {e : List Move} (he : s.env = .reset :: e) : StepEffect s ({ s with env := e } : State).blockReset
  | operation {c : Command} {cs : List Command} {i : Instr} {t : State} (hidle : s.rx.state = .idle)
      (hp : s.port = c :: cs) (hd : decode c = .ok i) (h : OpEffect (s.accepting cs) i t) : StepEffect s t
  | reserved {c : Command} {cs : List Command} (hidle : s.rx.state = .idle) (hp : s.port = c :: cs) :
      StepEffect s (s.accepting cs).reject
  | row {t : State} (h : parserRow Config.params { s with env := s.env.tail } = .next t) : StepEffect s t

theorem fetch_cases (s : State) :
    s.fetch = none ∨ ∃ c cs, s.rx.state = .idle ∧ s.port = c :: cs ∧ s.fetch = some (c, { s with port := cs }) := by
  by_cases hi : s.rx.state = .idle
  · cases hp : s.port with
    | nil => exact .inl (by simp only [State.fetch, hi, hp])
    | cons c cs => exact .inr ⟨c, cs, hi, rfl, fetch_command hi hp⟩
  · exact .inl (fetch_busy hi)

theorem blockMove_effect {s t : State} (h : blockMove { s with env := s.env.tail } = .next t) : StepEffect s t := by
  unfold blockMove at h
  obtain hf | ⟨c, cs, hi, hp, hf⟩ := fetch_cases { s with env := s.env.tail }
  · rw [hf] at h
    exact .row h
  · rw [hf] at h
    cases hd : decode c with
    | ok i =>
      simp only [runCommand, hd] at h
      exact .operation hi hp hd (exec_effect h)
    | error r =>
      simp only [runCommand, hd] at h
      cases h
      exact .reserved hi hp

/-- The inversion lemma of `step`. -/
theorem step_effect {s t : State} (h : step s = .next t) : StepEffect s t := by
  cases he : s.env with
  | nil => exact blockMove_effect ((step_block (.inl he)).symm.trans h)
  | cons x e =>
    cases x with
    | arrive b => cases (step_arrive he).symm.trans h; exact .arrive he
    | advance ms => cases (step_advance he).symm.trans h; exact .advance he
    | reset => cases (step_reset he).symm.trans h; exact .reset he
    | block => exact blockMove_effect ((step_block (.inr ⟨e, he⟩)).symm.trans h)

end Sys2Proof.Machine
end

section
/-! SUPPORT. What an operation does to the slots and to the registers, field by field, read off `OpEffect`. -/

namespace Sys2Proof.Machine

/-- The matrix of R18: `i` names slot `m`, and turns it from `sl` into the second. `MSG.INIT` replaces the slot, a pack writes
its payload, a send its counter and in `CRC8` mode its payload, a receive everything but `CRCMODE`, and `CTR` and `CRC` in
`CRC8` mode only. No operation makes `LEN` greater than 8 (R12). -/
inductive SlotWrite : Instr → Nat → Slot → Slot → Prop
  | construct {m : Nat} {id : Word32} {len : Byte} {mode : CrcMode} {sl : Slot} (hl : len ≤ 8) :
      SlotWrite (.msgInit m id len mode) m sl (constructSlot id len mode)
  | packValues {m w : Nat} {vals : List Elem} {sl : Slot} (P : Vector Byte Config.payloadSize) :
      SlotWrite (.msgPackv m w vals) m sl { sl with payload := P }
  | packText {m : Nat} {text : List Byte} {sl : Slot} (P : Vector Byte Config.payloadSize) :
      SlotWrite (.msgPackt m text) m sl { sl with payload := P }
  | send {m : Nat} {ts : Word32} {sl : Slot} (P : Vector Byte Config.payloadSize)
      (hP : sl.crcMode = .none → P = sl.payload) :
      SlotWrite (.xcvSend m ts) m sl { sl with payload := P, ctr := sl.ctr + 1 }
  | receive {m : Nat} {tmo : Word32} {sl sl' : Slot} (hmode : sl'.crcMode = sl.crcMode)
      (hnone : sl.crcMode = .none → sl'.ctr = sl.ctr ∧ sl'.crc = sl.crc) (hlen : sl.len ≤ 8 → sl'.len ≤ 8) :
      SlotWrite (.xcvRecv m tmo) m sl sl'

theorem reset_mem_of_cut {e ran rem : List Move} (h : e = ran ++ .reset :: rem) : Move.reset ∈ e :=
  h ▸ List.mem_append_right _ (List.mem_cons_self ..)

theorem WasCutOff.reset_mem {s t : State} (h : WasCutOff s t) : Move.reset ∈ s.env := by
  obtain ⟨ran, s0, he, -⟩ := h
  exact reset_mem_of_cut he

/-- An operation leaves the slots as they are, writes one of them, or is cut off by a reset. -/
theorem OpEffect.slots {i : Instr} {s t : State} (h : OpEffect s i t) :
    t.slots = s.slots ∨
    (∃ m sl sl', s.slots[m]? = some sl ∧ t.slots = s.slots.set m sl' ∧ SlotWrite i m sl sl') ∨
    Move.reset ∈ s.env ∧ t.slots = List.replicate s.slots.length Slot.reset := by
  cases h with
  | rejected | computed | faultRead | begun => exact .inl rfl
  | constructed hs hl => exact .inr (.inl ⟨_, _, _, hs, rfl, .construct hl⟩)
  | packedValues P hs => exact .inr (.inl ⟨_, _, _, hs, rfl, .packValues P⟩)
  | packedText P hs => exact .inr (.inl ⟨_, _, _, hs, rfl, .packText P⟩)
  | sent hs _ => exact .inr (.inl ⟨_, _, _, hs, rfl, .send _ (sendPayload_none _ _)⟩)
  | sendCutOff he => exact .inr (.inr ⟨reset_mem_of_cut he, rfl⟩)
  | received _ _ hR _ =>
    obtain ⟨sl, sl', hs, ht, hmode, hnone, hlen⟩ := hR.slot
    exact .inr (.inl ⟨_, _, _, hs, ht, .receive hmode hnone hlen⟩)
  | receiveCutOff _ _ hc =>
    obtain ⟨ran, s0, he, rfl, hlen, -⟩ := hc
    exact .inr (.inr ⟨reset_mem_of_cut he, congrArg (List.replicate · Slot.reset) hlen⟩)

/-- Slot by slot, where no reset is scheduled: kept, or written as the matrix says. -/
theorem OpEffect.slot {i : Instr} {s t : State} (h : OpEffect s i t) (hr : Move.reset ∉ s.env) (j : Nat) :
    t.slots[j]? = s.slots[j]? ∨
    ∃ sl sl', s.slots[j]? = some sl ∧ t.slots[j]? = some sl' ∧ SlotWrite i j sl sl' := by
  obtain ht | ⟨m, sl, sl', hs, ht, hw⟩ | ⟨he, -⟩ := h.slots
  · exact .inl (by rw [ht])
  · by_cases hj : m = j
    · subst hj
      exact .inr ⟨sl, sl', hs, by rw [ht, List.getElem?_set_self (slot_lt hs)], hw⟩
    · exact .inl (by rw [ht, List.getElem?_set_ne hj])
  · exact absurd he hr

/-- The number of slots stays (R10). -/
theorem OpEffect.slots_length {i : Instr} {s t : State} (h : OpEffect s i t) : t.slots.length = s.slots.length := by
  obtain ht | ⟨m, sl, sl', -, ht, -⟩ | ⟨-, ht⟩ := h.slots
  · rw [ht]
  · rw [ht, List.length_set]
  · rw [ht, List.length_replicate]

theorem SlotWrite.len_le {i : Instr} {m : Nat} {sl sl' : Slot} (h : SlotWrite i m sl sl') (hl : sl.len ≤ 8) :
    sl'.len ≤ 8 := by
  cases h with
  | construct hlen => exact hlen
  | packValues | packText | send => exact hl
  | receive _ _ hlen => exact hlen hl

/-- Only `MSG.INIT` writes `CRCMODE` (R13, R18). -/
theorem SlotWrite.crcMode_eq {i : Instr} {m : Nat} {sl sl' : Slot} (h : SlotWrite i m sl sl')
    (hi : ∀ id len mode, i ≠ .msgInit m id len mode) : sl'.crcMode = sl.crcMode := by
  cases h with
  | construct => exact absurd rfl (hi _ _ _)
  | packValues | packText | send => rfl
  | receive hmode => exact hmode

/-- A ready Transceiver stays ready under every operation that no reset cuts off (R20). -/
theorem OpEffect.init_of_ready {i : Instr} {s t : State} (h : OpEffect s i t) (hr : Move.reset ∉ s.env)
    (hi : s.init = true) : t.init = true := by
  cases h with
  | rejected | computed | faultRead | constructed | packedValues | packedText | sent => exact hi
  | begun => rfl
  | sendCutOff he => exact absurd (reset_mem_of_cut he) hr
  | received _ _ hR _ => rw [hR.rest]; exact hi
  | receiveCutOff _ _ hc => exact absurd hc.reset_mem hr

/-- No operation takes or adds a command at the port, cut off or not. -/
theorem OpEffect.port_eq {i : Instr} {s t : State} (h : OpEffect s i t) : t.port = s.port := by
  cases h with
  | rejected | computed | faultRead | constructed | packedValues | packedText | begun | sent | sendCutOff => rfl
  | received _ _ hR _ => rw [hR.rest]
  | receiveCutOff _ _ hc =>
    obtain ⟨ran, s0, -, rfl, -, -, -, hport, -⟩ := hc
    exact hport

/-- Only `XCV.SEND` writes `TXQ` (R46). -/
theorem OpEffect.txq_eq {i : Instr} {s t : State} (h : OpEffect s i t) (hi : ∀ m ts, i ≠ .xcvSend m ts) :
    t.txq = s.txq := by
  cases h with
  | rejected | computed | faultRead | constructed | packedValues | packedText | begun => rfl
  | sent | sendCutOff => exact absurd rfl (hi _ _)
  | received _ _ hR _ => rw [hR.rest]
  | receiveCutOff _ _ hc =>
    obtain ⟨ran, s0, -, rfl, -, htxq, -⟩ := hc
    exact htxq

/-- `TXQ` is only ever appended to (R28), cut off or not. -/
theorem OpEffect.txq_append {i : Instr} {s t : State} (h : OpEffect s i t) : ∃ f, t.txq = s.txq ++ f := by
  cases h with
  | rejected | computed | faultRead | constructed | packedValues | packedText | begun =>
    exact ⟨[], (List.append_nil _).symm⟩
  | sent | sendCutOff => exact ⟨_, rfl⟩
  | received hi hm hR hE => exact ⟨[], by rw [hR.rest, List.append_nil]⟩
  | receiveCutOff _ _ hc =>
    obtain ⟨ran, s0, -, rfl, -, htxq, -⟩ := hc
    exact ⟨[], by rw [State.blockReset_txq, htxq, List.append_nil]⟩

/-- Neither a message operation nor a control operation touches the receive side (R40). -/
theorem OpEffect.receiveSide_eq {i : Instr} {s t : State} (h : OpEffect s i t) (hrecv : ∀ m tmo, i ≠ .xcvRecv m tmo)
    (hsend : ∀ m ts, i ≠ .xcvSend m ts) : t.rxq = s.rxq ∧ t.rx = s.rx ∧ t.clk = s.clk ∧ t.env = s.env := by
  cases h with
  | rejected | computed | faultRead | constructed | packedValues | packedText | begun => exact ⟨rfl, rfl, rfl, rfl⟩
  | sent | sendCutOff => exact absurd rfl (hsend _ _)
  | received | receiveCutOff => exact absurd rfl (hrecv _ _)

/-- While a send takes its turns the environment goes on, and the parser stays (R48). -/
theorem OpEffect.send_envRan {m : Nat} {ts : Word32} {s t : State} (h : OpEffect s (.xcvSend m ts) t)
    (hr : Move.reset ∉ s.env) : t.rx = s.rx ∧ s.EnvRan t s.rxq := by
  cases h with
  | rejected => exact ⟨rfl, [], rfl, (List.append_nil _).symm, (BitVec.add_zero _).symm⟩
  | sent _ he => exact ⟨rfl, _, he, rfl, rfl⟩
  | sendCutOff he => exact absurd (reset_mem_of_cut he) hr

/-! ### The invariant, piece by piece -/

/-- What the invariant says of the slots alone (R6, R12). -/
def SlotsOk (slots : List Slot) : Prop := 0 < slots.length ∧ ∀ sl ∈ slots, sl.len ≤ 8

theorem State.Inv.slotsOk {s : State} (h : s.Inv) : SlotsOk s.slots := ⟨h.slots_exist, h.len_le⟩

theorem SlotsOk.len_le {slots : List Slot} {m : Nat} {sl : Slot} (h : SlotsOk slots) (hs : slots[m]? = some sl) :
    sl.len ≤ 8 := h.2 sl (List.mem_of_getElem? hs)

theorem SlotsOk.set {slots : List Slot} (h : SlotsOk slots) (m : Nat) {sl : Slot} (hl : sl.len ≤ 8) :
    SlotsOk (slots.set m sl) :=
  ⟨by rw [List.length_set]; exact h.1, fun x hx => (List.mem_or_eq_of_mem_set hx).elim (h.2 x) fun he => he ▸ hl⟩

theorem SlotsOk.replicate_reset {n : Nat} (h : 0 < n) : SlotsOk (List.replicate n Slot.reset) := by
  refine ⟨by rwa [List.length_replicate], fun sl hsl => ?_⟩
  rw [List.eq_of_mem_replicate hsl]
  decide

/-- Every operation keeps `LEN` at most 8 (R12). -/
theorem OpEffect.slotsOk {i : Instr} {s t : State} (h : OpEffect s i t) (hs : SlotsOk s.slots) : SlotsOk t.slots := by
  obtain ht | ⟨m, sl, sl', hm, ht, hw⟩ | ⟨-, ht⟩ := h.slots
  · rwa [ht]
  · rw [ht]
    exact hs.set m (hw.len_le (hs.len_le hm))
  · rw [ht]
    exact .replicate_reset hs.1

/-- With an idle parser the invariant speaks of the slots only. -/
theorem SlotsOk.inv_of_idle {t : State} (h : SlotsOk t.slots) (hidle : t.rx.state = .idle) : t.Inv where
  slots_exist := h.1
  len_le := h.2
  rx_slot hx := absurd hidle hx
  rx_init hx := absurd hidle hx
  rx_index hx := nomatch hidle.symm.trans hx
  rx_found hx := nomatch hidle.symm.trans hx

/-- A parser that waits for window byte `RX.I` (R25, R27, R116, R131). -/
theorem SlotsOk.inv_of_window {t : State} (h : SlotsOk t.slots) (hm : t.rx.m < t.slots.length) (hi : t.init = true)
    (hx : t.rx.i ≤ 17) (hf : t.rx.found = false) : t.Inv where
  slots_exist := h.1
  len_le := h.2
  rx_slot _ := hm
  rx_init _ := hi
  rx_index _ := hx
  rx_found _ := hf

/-- What leaves the parser, the number of slots and readiness alone keeps the invariant once `LEN` stays in range. -/
theorem State.Inv.of_rx_eq {s t : State} (h : s.Inv) (hs : SlotsOk t.slots) (hlen : t.slots.length = s.slots.length)
    (hrx : t.rx = s.rx) (hi : s.init = true → t.init = true) : t.Inv where
  slots_exist := hs.1
  len_le := hs.2
  rx_slot hx := by rw [hlen, hrx]; exact h.rx_slot (hrx ▸ hx)
  rx_init hx := hi (h.rx_init (hrx ▸ hx))
  rx_index hx := by rw [hrx] at hx ⊢; exact h.rx_index hx
  rx_found hx := by rw [hrx] at hx ⊢; exact h.rx_found hx

/-- The invariant does not speak of the schedule. -/
theorem State.Inv.withEnv {s : State} (h : s.Inv) (e : List Move) : ({ s with env := e } : State).Inv :=
  h.of_rx_eq h.slotsOk rfl rfl id

theorem State.Inv.blockReset {s : State} (h : s.Inv) : s.blockReset.Inv :=
  (SlotsOk.replicate_reset h.slots_exist).inv_of_idle rfl

/-- The parser after an operation: untouched, idle, or waiting for a window byte of the slot the operation names. -/
theorem OpEffect.rx {i : Instr} {s t : State} (h : OpEffect s i t) :
    (t.rx = s.rx ∧ (s.init = true → t.init = true)) ∨ t.rx.state = .idle ∨
    (t.rx.m < s.slots.length ∧ t.init = true ∧ t.rx.i ≤ 17 ∧ t.rx.found = false) := by
  cases h with
  | rejected | computed | faultRead | constructed | packedValues | packedText | sent => exact .inl ⟨rfl, id⟩
  | begun => exact .inl ⟨rfl, fun _ => rfl⟩
  | sendCutOff => exact .inr (.inl rfl)
  | received hi hm hR hE =>
    obtain ⟨f, hidle, -⟩ | ⟨q, hrx, hx, -⟩ := hE
    · exact .inr (.inl hidle)
    · exact .inr (.inr ⟨by rw [hrx]; exact hm, by rw [hR.rest]; exact hi, hx, by rw [hrx]; rfl⟩)
  | receiveCutOff _ _ hc =>
    obtain ⟨ran, s0, -, rfl, -⟩ := hc
    exact .inr (.inl rfl)

/-- Every operation keeps the invariant. -/
theorem OpEffect.inv {i : Instr} {s t : State} (h : OpEffect s i t) (hs : s.Inv) : t.Inv := by
  have hok : SlotsOk t.slots := h.slotsOk hs.slotsOk
  obtain ⟨hrx, hi⟩ | hidle | ⟨hm, hi, hx, hf⟩ := h.rx
  · exact hs.of_rx_eq hok h.slots_length hrx hi
  · exact hok.inv_of_idle hidle
  · exact hok.inv_of_window (h.slots_length ▸ hm) hi hx hf

/-! ### The rows of the parser -/

/-- The row of `AwaitStart` ends the receive or enters the window (R116, R117). -/
theorem awaitStartRow_keeps_inv {s t : State} (hs : s.Inv) (hstate : s.rx.state = .awaitStart)
    (h : awaitStartRow s = .next t) : t.Inv := by
  have hbusy : s.rx.state ≠ .idle := by simp [hstate]
  unfold awaitStartRow at h
  split at h
  · cases h
    exact SlotsOk.inv_of_idle hs.slotsOk rfl
  · split at h
    · cases h
      exact SlotsOk.inv_of_window hs.slotsOk (hs.rx_slot hbusy) (hs.rx_init hbusy) (by simp) rfl
    · cases h
      exact SlotsOk.inv_of_idle hs.slotsOk rfl

/-- The end of a frame ends the receive, its slot's length in range. -/
theorem verifyFrame_keeps_inv {p : Config.Params} {m : Nat} {s t : State} (hok : SlotsOk s.slots)
    (h : verifyFrame p m s = .next t) : t.Inv := by
  cases hs : s.slots[m]? with
  | none => simp [verifyFrame, State.slot, hs] at h
  | some sl =>
    have hl := hok.len_le hs
    obtain ⟨f, sl', he, -, hsl, -⟩ := verifyFrame_spec p hs hl
    cases he.symm.trans h
    exact SlotsOk.inv_of_idle (hok.set m (by rw [hsl]; exact hl)) rfl

/-- The next window index is in range when this one is and is not the last (R25). -/
theorem window_index_succ_le {i : BitVec 5} (h : i ≤ 17) (hlast : i ≠ 17) : i + 1 ≤ 17 := by
  bv_omega

/-- The row of `ReadFixedWindow` with no byte there (R119, R131). -/
theorem windowRow_nil (p : Config.Params) {s : State} (hq : s.rxq = []) :
    windowRow p s = if budgetSpent s then .next (s.finish .timeout) else .next s := by
  simp only [windowRow, hq]

/-- The row of `ReadFixedWindow` that handles a byte at index `RX.I` (R120 to R124, R131). -/
theorem windowRow_byte (p : Config.Params) {s : State} {b : Byte} {q : List Byte} {sl sl' : Slot} {found : Bool}
    (hq : s.rxq = b :: q) (hx : s.rx.i ≤ 17) (hs : s.slots[s.rx.m]? = some sl)
    (hw : windowByte s.rx.i.toNat b sl = some (sl', found)) :
    windowRow p s =
      if found then verifyFrame p s.rx.m { s with
        rxq := q, slots := s.slots.set s.rx.m sl', rx := { s.rx with found := true } }
      else if s.rx.i = 17 then
        .next (({ s with rxq := q } : State).setSlot s.rx.m sl' |>.finish .missingEndDelimiter)
      else .next { s with
        rxq := q, slots := s.slots.set s.rx.m sl', rx := { s.rx with i := s.rx.i + 1, t0 := s.clk } } := by
  have hx' : ¬ 17 < s.rx.i := by simpa using hx
  simp only [windowRow, hq, if_neg hx', State.slot, hs, hw]
  rfl

/-- The rows of `ReadFixedWindow` keep the invariant: the receive ends, or waits for the same or the next window byte. -/
theorem windowRow_keeps_inv {p : Config.Params} {s t : State} (hs : s.Inv) (hstate : s.rx.state = .readFixedWindow)
    (h : windowRow p s = .next t) : t.Inv := by
  have hbusy : s.rx.state ≠ .idle := by simp [hstate]
  have hx : s.rx.i ≤ 17 := hs.rx_index hstate
  cases hq : s.rxq with
  | nil =>
    rw [windowRow_nil p hq] at h
    split at h
    · cases h
      exact SlotsOk.inv_of_idle hs.slotsOk rfl
    · cases h
      exact hs
  | cons b q =>
    have hsl := List.getElem?_eq_getElem (hs.rx_slot hbusy)
    have hl := hs.slotsOk.len_le hsl
    obtain ⟨⟨sl', found⟩, hw⟩ := windowByte_isSome b (show s.rx.i.toNat ≤ 17 from hx) hl
    have hok : SlotsOk (s.slots.set s.rx.m sl') := hs.slotsOk.set _ ((windowByte_fields hw).2 hl)
    rw [windowRow_byte p hq hx hsl hw] at h
    cases found with
    | true => exact verifyFrame_keeps_inv hok h
    | false =>
      by_cases hlast : s.rx.i = 17
      · rw [if_neg Bool.false_ne_true, if_pos hlast] at h
        cases h
        exact SlotsOk.inv_of_idle hok rfl
      · rw [if_neg Bool.false_ne_true, if_neg hlast] at h
        cases h
        exact SlotsOk.inv_of_window hok (by simpa using hs.rx_slot hbusy) (hs.rx_init hbusy)
          (window_index_succ_le hx hlast) (hs.rx_found hstate)

theorem parserRow_keeps_inv {p : Config.Params} {s t : State} (hs : s.Inv) (h : parserRow p s = .next t) : t.Inv := by
  unfold parserRow at h
  split at h
  · cases h
    exact hs
  · next hstate => exact awaitStartRow_keeps_inv hs hstate h
  · next hstate => exact windowRow_keeps_inv hs hstate h

end Sys2Proof.Machine
end

section
/-! The statements about the state and who writes it (`10_state.md`), settled. -/

namespace Sys2Proof.Machine

/-- Settles O45: the environment's moves and a reset keep the invariant, and so does an operation or a row of the parser. -/
theorem everyStepKeepsTheInvariant : Obligations.EveryStepKeepsTheInvariant := by
  intro s t hs h
  cases step_effect h with
  | arrive | advance => exact hs.of_rx_eq hs.slotsOk rfl rfl id
  | reset => exact (hs.withEnv _).blockReset
  | operation _ _ _ hop => exact hop.inv (hs.of_rx_eq hs.slotsOk rfl rfl id)
  | reserved => exact hs.of_rx_eq hs.slotsOk rfl rfl id
  | row hrow => exact parserRow_keeps_inv (hs.withEnv _) hrow

/-- Settles O47: an accepted receive is shut out, and so is a send that a reset cuts off; nothing else writes `FAULT`. -/
theorem onlyReceiveWritesTheFaultRegister : Obligations.OnlyReceiveWritesTheFaultRegister := by
  intro i s t hrecv hsend h
  have hacc {m : Nat} {tmo : Word32} (he : i = .xcvRecv m tmo) (hi : s.init = true) (hm : m < s.slots.length) : False :=
    (hrecv m tmo he).elim (by simp [hi]) (by omega)
  cases exec_effect h with
  | rejected | computed | faultRead | constructed | packedValues | packedText | begun | sent => rfl
  | sendCutOff he => exact absurd (reset_mem_of_cut he) (hsend _ _ rfl)
  | received hi hm => exact (hacc rfl hi hm).elim
  | receiveCutOff hi hm => exact (hacc rfl hi hm).elim

/-- Settles O48: where no reset is scheduled, neither an operation nor a row of the parser clears `INIT`. -/
theorem onlyResetClearsInit : Obligations.OnlyResetClearsInit := by
  intro s t hi hr h
  cases step_effect h with
  | arrive | advance | reserved => exact hi
  | reset he => exact absurd (by simp [he]) hr
  | operation _ _ _ hop => exact hop.init_of_ready (fun hm => hr (List.mem_of_mem_tail hm)) hi
  | row hrow => exact (parserRow_frame hrow).init.trans hi

/-- Settles O49: a slot that an operation writes keeps its `CRCMODE`, unless the operation is `MSG.INIT` of that slot. -/
theorem onlyInitWritesTheCrcMode : Obligations.OnlyInitWritesTheCrcMode := by
  intro i s t j hi hr h
  obtain hkept | ⟨sl, sl', hs, ht, hw⟩ := (exec_effect h).slot hr j
  · rw [hkept]
  · rw [hs, ht, Option.map_some, Option.map_some, hw.crcMode_eq hi]

/-- Settles O50: the cases of `SlotWrite` are the columns of the matrix of R18. -/
theorem slotFieldsChangeOnlyAsTheMatrixSays : Obligations.SlotFieldsChangeOnlyAsTheMatrixSays := by
  intro i s t hr h
  refine ⟨fun j hinit hpackv hpackt hsend hrecv => ?_, fun m sl sl' hs ht => ?_⟩
  · obtain hkept | ⟨sl, sl', -, -, hw⟩ := (exec_effect h).slot hr j
    · exact hkept
    · cases hw with
      | construct => exact absurd rfl (hinit _ _ _)
      | packValues => exact absurd rfl (hpackv _ _)
      | packText => exact absurd rfl (hpackt _)
      | send => exact absurd rfl (hsend _)
      | receive => exact absurd rfl (hrecv _)
  · obtain hkept | ⟨x, x', hx, hx', hw⟩ := (exec_effect h).slot hr m
    · cases hs.symm.trans (hkept.symm.trans ht)
      exact ⟨fun _ => rfl, fun _ => ⟨rfl, fun _ => rfl⟩, fun _ => ⟨rfl, fun _ => ⟨rfl, rfl⟩⟩⟩
    · cases hs.symm.trans hx
      cases ht.symm.trans hx'
      cases hw with
      | construct => simp
      | packValues | packText => simp
      | send P hP => simpa using hP
      | receive hmode hnone => simpa using ⟨hmode, hnone⟩

/-- Settles O51: an operation other than a send or a receive leaves the receive side as it is, a send moves it as the schedule
says, and only a send appends to `TXQ`. -/
theorem onlyReceiveTouchesTheReceiveSide : Obligations.OnlyReceiveTouchesTheReceiveSide := by
  intro i s t h
  have hop := exec_effect h
  refine ⟨hop.receiveSide_eq, ?_, hop.port_eq, hop.txq_append, hop.txq_eq, hop.slots_length⟩
  rintro ⟨m, ts, rfl⟩ hr
  exact hop.send_envRan hr

/-- Settles O5: the two moves of the environment, on the block with or without a receive in flight. -/
theorem environmentMovesTouchTheirStreamOnly : Obligations.EnvironmentMovesTouchTheirStreamOnly :=
  ⟨fun _ _ _ he => step_arrive he, fun _ _ _ he => step_advance he⟩

end Sys2Proof.Machine
end

section
/-! SUPPORT. In the states of the invariant neither an operation nor a row of the parser stops the machine
(`20_memory.md` R41). -/

namespace Sys2Proof.Machine

theorem execMsgInit_goes (m : Nat) (id : Word32) (len : Byte) (mode : CrcMode) (s : State) :
    ∃ t, execMsgInit m id len mode s = .next t := by
  obtain ⟨-, he⟩ | ⟨-, -, he⟩ := execMsgInit_cases m id len mode s
  · exact ⟨_, he⟩
  · exact ⟨_, he⟩

theorem packBytes_goes (m : Nat) (bytes : List Byte) (s : State) : ∃ t, packBytes m bytes s = .next t := by
  obtain he | ⟨sl, -, he⟩ := packBytes_cases m bytes s
  · exact ⟨_, he⟩
  · exact ⟨_, he⟩

theorem execMsgPackv_goes (m w : Nat) (vals : List Elem) (s : State) : ∃ t, execMsgPackv m w vals s = .next t := by
  unfold execMsgPackv
  split
  · exact packBytes_goes m (elementBytes w vals) s
  · exact ⟨_, rfl⟩

/-- A send stops on a `LEN` above 8 only, and no slot has one. -/
theorem sendFrame_goes (p : Config.Params) (m : Nat) (ts : Word32) {s : State} (hok : SlotsOk s.slots) :
    ∃ t, sendFrame p m ts s = .next t := by
  obtain he | ⟨-, sl, hs, hl⟩ | ⟨sl, -, -, -, -, ran, rem, -, ⟨-, he⟩ | ⟨-, he⟩⟩ := sendFrame_cases p s m ts
  · exact ⟨_, he⟩
  · exact absurd (hok.len_le hs) (BitVec.not_le.2 hl)
  · exact ⟨_, he⟩
  · exact ⟨_, he⟩

theorem receiveFrame_goes (p : Config.Params) (m : Nat) (tmo : Word32) (s : State) :
    ∃ t, receiveFrame p m tmo s = .next t := by
  obtain ⟨t, he, -⟩ := receiveFrame_spec p m tmo s
  exact ⟨t, he⟩

/-- No operation stops the machine once `LEN` is in range in every slot (R12, R41). -/
theorem exec_goes (i : Instr) {s : State} (hok : SlotsOk s.slots) : ∃ t, exec i s = .next t := by
  cases i with
  | crc8Compute | xcvBegin | xcvGetfault => exact ⟨_, rfl⟩
  | msgInit m id len mode => exact execMsgInit_goes m id len mode s
  | msgPackv m w vals => exact execMsgPackv_goes m w vals s
  | msgPackt m text => exact packBytes_goes m text s
  | xcvSend m ts => exact sendFrame_goes _ m ts hok
  | xcvRecv m tmo => exact receiveFrame_goes _ m tmo s

theorem runCommand_goes (c : Command) {s : State} (hok : SlotsOk s.slots) : ∃ t, runCommand c s = .next t := by
  unfold runCommand
  split
  · exact exec_goes _ hok
  · exact ⟨_, rfl⟩

theorem awaitStartRow_goes (s : State) : ∃ t, awaitStartRow s = .next t := by
  unfold awaitStartRow
  split
  · exact ⟨_, rfl⟩
  · split
    · exact ⟨_, rfl⟩
    · exact ⟨_, rfl⟩

theorem verifyFrame_goes (p : Config.Params) {m : Nat} {s : State} (hok : SlotsOk s.slots) (hm : m < s.slots.length) :
    ∃ t, verifyFrame p m s = .next t := by
  have hs := List.getElem?_eq_getElem hm
  obtain ⟨f, sl', he, -⟩ := verifyFrame_spec p hs (hok.len_le hs)
  exact ⟨_, he⟩

/-- The row of `ReadFixedWindow` finds its window index, its slot and its payload index in range (R25, R41, R131). -/
theorem windowRow_goes (p : Config.Params) {s : State} (hs : s.Inv) (hstate : s.rx.state = .readFixedWindow) :
    ∃ t, windowRow p s = .next t := by
  have hm : s.rx.m < s.slots.length := hs.rx_slot (by simp [hstate])
  have hx : s.rx.i ≤ 17 := hs.rx_index hstate
  cases hq : s.rxq with
  | nil =>
    rw [windowRow_nil p hq]
    split
    · exact ⟨_, rfl⟩
    · exact ⟨_, rfl⟩
  | cons b q =>
    have hsl := List.getElem?_eq_getElem hm
    have hl := hs.slotsOk.len_le hsl
    obtain ⟨⟨sl', found⟩, hw⟩ := windowByte_isSome b (show s.rx.i.toNat ≤ 17 from hx) hl
    rw [windowRow_byte p hq hx hsl hw]
    split
    · exact verifyFrame_goes p (hs.slotsOk.set _ ((windowByte_fields hw).2 hl)) (by simpa using hm)
    · split
      · exact ⟨_, rfl⟩
      · exact ⟨_, rfl⟩

theorem parserRow_goes (p : Config.Params) {s : State} (hs : s.Inv) : ∃ t, parserRow p s = .next t := by
  unfold parserRow
  split
  · exact ⟨_, rfl⟩
  · exact awaitStartRow_goes s
  · next hstate => exact windowRow_goes p hs hstate

theorem blockMove_goes {s : State} (hs : s.Inv) : ∃ t, blockMove s = .next t := by
  unfold blockMove
  obtain hf | ⟨c, cs, -, -, hf⟩ := fetch_cases s
  · rw [hf]
    exact parserRow_goes _ hs
  · rw [hf]
    exact runCommand_goes c hs.slotsOk

end Sys2Proof.Machine
end

section
/-! SUPPORT. The block's turn that accepts a command, and the turn of the schedule that ends a send (`20_memory.md` R48,
R50). -/

namespace Sys2Proof.Machine

/-- A ready block at its turn runs the caller's oldest command (R50, R71). -/
theorem step_command {s : State} {c : Command} {cs : List Command} (hidle : s.rx.state = .idle) (hp : s.port = c :: cs)
    (he : s.env = [] ∨ ∃ e, s.env = .block :: e) : step s = runCommand c (s.accepting cs) := by
  rw [step_block he, blockMove, fetch_command (s := { s with env := s.env.tail }) hidle hp]

/-- Enough turns of the block before any reset. -/
theorem uncut_append {n : Nat} {ran : List Move} (rem : List Move) (hr : Move.reset ∉ ran) (hn : n ≤ turns ran) :
    Uncut n (ran ++ rem) := by
  intro _
  have hpos : ∀ x ∈ ran, decide (x ≠ Move.reset) = true := fun x hx => by simpa using ne_of_mem_of_not_mem hx hr
  rw [List.takeWhile_append_of_pos hpos, turns, List.count_append]
  exact hn.trans (Nat.le_add_right _ _)

/-- Moves without a turn of the block do not begin with one. -/
theorem eq_nil_of_no_turn {a x y : List Move} (h : .block :: x = a ++ y) (ha : turns a = 0) : a = [] := by
  cases a with
  | nil => rfl
  | cons z a =>
    obtain ⟨rfl, -⟩ := List.cons.inj h
    simp at ha

/-- Where a schedule has its turn number `n` is determined by `n`. -/
theorem split_at_turn_unique {r ran rem' rem : List Move} (h : r ++ .block :: rem' = ran ++ .block :: rem)
    (hn : turns r = turns ran) : r = ran ∧ rem' = rem := by
  obtain ⟨a, rfl, ha⟩ | ⟨a, rfl, ha⟩ := List.append_eq_append_iff.1 h
  · obtain rfl := eq_nil_of_no_turn ha (by simpa [turns] using hn)
    simpa using ha
  · obtain rfl := eq_nil_of_no_turn ha (by simpa [turns] using hn)
    simpa using ha.symm

/-- A send of `n` bytes whose last turn is scheduled ends there (R48, R109). -/
theorem SendTurns.at_turn {n : Nat} {ran' ran rem' rem : List Move} (h : SendTurns n ran' rem')
    (he : ran ++ .block :: rem = ran' ++ rem') (hn : turns ran = n) : ran' = ran ++ [.block] ∧ rem' = rem := by
  obtain ⟨rfl, hle⟩ | ⟨r, rfl, hr⟩ := h
  · have hcount : turns ran' = turns ran + 1 + turns rem := by
      rw [← List.append_nil ran', ← he, turns, List.count_append, List.count_cons_self, Nat.add_right_comm, Nat.add_assoc]
    omega
  · obtain ⟨rfl, rfl⟩ := split_at_turn_unique (by simpa using he.symm) (hr.trans hn.symm)
    exact ⟨rfl, rfl⟩

/-- A send of `n` bytes whose last turn is not scheduled runs all that is scheduled. -/
theorem SendTurns.all_run {n : Nat} {ran rem : List Move} (h : SendTurns n ran rem) (hn : turns (ran ++ rem) ≤ n) :
    rem = [] := by
  obtain ⟨rfl, -⟩ | ⟨r, rfl, hr⟩ := h
  · rfl
  · simp only [turns, List.count_append, List.count_singleton_self] at hn hr
    omega

end Sys2Proof.Machine
end

section
/-! The statements about the steps of the machine and what happens between them (`20_memory.md`), settled. -/

namespace Sys2Proof.Machine

/-- Settles O46: moves outside the block never stop it, and of the block's own moves the invariant keeps every index in its
space. -/
theorem invariantStatesNeverStop : Obligations.InvariantStatesNeverStop := by
  intro s hs
  unfold State.Goes
  cases he : s.env with
  | nil => exact step_block (.inl he) ▸ blockMove_goes (hs.withEnv _)
  | cons x e =>
    cases x with
    | arrive b => exact ⟨_, step_arrive he⟩
    | advance ms => exact ⟨_, step_advance he⟩
    | reset => exact ⟨_, step_reset he⟩
    | block => exact step_block (.inr ⟨e, he⟩) ▸ blockMove_goes (hs.withEnv _)

/-- Settles O6: with a receive in flight the step is a move of the environment or a row of the parser. -/
theorem busyPortAcceptsNothing : Obligations.BusyPortAcceptsNothing := by
  intro s t hbusy hr h
  cases step_effect h with
  | arrive | advance => exact ⟨rfl, rfl, rfl, rfl, rfl, fun _ _ => rfl, fun _ => ⟨rfl, rfl⟩⟩
  | reset he => exact absurd (by rw [he, List.head?_cons]) hr
  | operation hidle | reserved hidle => exact absurd hidle hbusy
  | row hrow =>
    obtain ⟨hinit, hport, htxq, hbegun, hscratch, hothers, hgoing⟩ := parserRow_frame hrow
    exact ⟨hport, htxq, hbegun, hinit, hscratch, hothers, hgoing⟩

/-- Settles O26: the moves an accepted send reads off the schedule end at its last turn, or are the whole schedule. -/
theorem sendTakesATurnForEachByte : Obligations.SendTakesATurnForEachByte := by
  intro s m ts sl hi hs hl hc
  refine ⟨fun ran rem he hr hn => ?_, fun hr hn => ?_⟩
  · have hu : Uncut (12 + sl.len.toNat) s.env := by
      rw [he, List.append_cons]
      exact uncut_append rem (by simpa using hr) (by simp [turns] at hn ⊢; omega)
    obtain ⟨ran', rem', he', -, hturns, ht⟩ := sendFrame_accepted Config.params ts hi hs hl hc hu
    obtain ⟨rfl, rfl⟩ := hturns.at_turn (he.symm.trans he') hn
    refine ⟨_, ht, ?_, ?_, rfl, rfl⟩
    · simp [State.afterSend, State.afterWrites, State.afterMoves, arrivals_append, arrivals]
    · simp [State.afterSend, State.afterWrites, State.afterMoves, elapsed_append, elapsed]
  · obtain ⟨ran, rem, he, -, hturns, ht⟩ :=
      sendFrame_accepted Config.params ts hi hs hl hc fun h => absurd h hr
    obtain rfl := hturns.all_run (he ▸ hn)
    rw [List.append_nil] at he
    exact ⟨_, ht, he ▸ rfl, he ▸ rfl, rfl, rfl⟩

/-- Settles O3: the step runs the command, and a decoded command is its operation. -/
theorem stepRunsTheDecodedCommand : Obligations.StepRunsTheDecodedCommand := by
  intro s c cs i hidle hp he hd
  rw [step_command hidle hp he, runCommand, hd]

end Sys2Proof.Machine
end

section
/-! SUPPORT. The decoder and the rejected operands (`30_encoding.md` R71 to R73), one row of the parser by what its window
byte does (R66), and the accumulator after fewer than four folds (R68). -/

namespace Sys2Proof.Machine

/-! ### The decoder -/

theorem decode_encode (i : Instr) : decode (encode i) = .ok i := by
  cases i <;> rfl

theorem encode_op_lt_eight (i : Instr) : (encode i).op < 8 := by
  cases i with
  | crc8Compute bytes => exact Laws.TableCode.crc8Compute bytes
  | msgInit m id len mode => exact Laws.TableCode.msgInit m id len mode
  | msgPackv m w vals => exact Laws.TableCode.msgPackv m w vals
  | msgPackt m text => exact Laws.TableCode.msgPackt m text
  | xcvBegin cfg => exact Laws.TableCode.xcvBegin cfg
  | xcvSend m ts => exact Laws.TableCode.xcvSend m ts
  | xcvRecv m tmo => exact Laws.TableCode.xcvRecv m tmo
  | xcvGetfault => exact Laws.TableCode.xcvGetfault

/-- The inversion lemma of the decoder: an operation with the command's code, or a reserved code (R72, R73). -/
theorem decode_cases (c : Command) :
    (∃ i, decode c = .ok i ∧ (encode i).op = c.op) ∨ (8 ≤ c.op ∧ decode c = .error (.reservedOp c.op)) := by
  unfold decode
  split
  case h_1 h | h_2 h | h_3 h | h_4 h | h_5 h | h_6 h | h_7 h | h_8 h =>
    exact .inl ⟨_, rfl, (BitVec.eq_of_toNat_eq h).symm⟩
  case h_9 =>
    refine .inr ⟨show 8 ≤ c.op.toNat from ?_, rfl⟩
    simp only [imp_false] at *
    omega

theorem encode_op_of_decode {c : Command} {i : Instr} (h : decode c = .ok i) : (encode i).op = c.op := by
  obtain ⟨j, hj, hop⟩ | ⟨-, he⟩ := decode_cases c
  · cases hj.symm.trans h
    exact hop
  · cases he.symm.trans h

theorem decode_reserved_iff (c : Command) : decode c = .error (.reservedOp c.op) ↔ 8 ≤ c.op := by
  obtain ⟨i, hi, hop⟩ | ⟨h8, he⟩ := decode_cases c
  · have hlt : ¬ 8 ≤ c.op := BitVec.not_le.2 (hop ▸ encode_op_lt_eight i)
    simp only [hi, hlt, reduceCtorEq]
  · exact iff_of_true he h8

/-! ### Rejected operands -/

theorem execMsgPackv_badWidth {w : Nat} (hw : w ∉ Config.packWidths) (m : Nat) (vals : List Elem) (s : State) :
    execMsgPackv m w vals s = .next s.reject := if_neg (mt (widthLegal_iff w).1 hw)

theorem execMsgInit_missingSlot {s : State} {m : Nat} (hm : s.slots[m]? = none) (id : Word32) (len : Byte)
    (mode : CrcMode) : execMsgInit m id len mode s = .next s.reject := by
  simp only [execMsgInit, State.slot, hm]

theorem execMsgPackv_missingSlot {s : State} {m : Nat} (hm : s.slots[m]? = none) (w : Nat) (vals : List Elem) :
    execMsgPackv m w vals s = .next s.reject := by
  by_cases hw : w ∈ Config.packWidths
  · exact (exec_msgPackv hw).trans (packBytes_rejected (.inl hm))
  · exact execMsgPackv_badWidth hw m vals s

/-! ### One row of the parser -/

theorem windowByte_endDelim {i : Nat} (sl : Slot) (h : 9 + sl.len.toNat ≤ i) :
    windowByte i Config.endDelim sl = some (sl, true) := windowByte_search _ sl h

theorem windowByte_dropped {i : Nat} {b : Byte} (sl : Slot) (h : 9 + sl.len.toNat ≤ i) (hb : b ≠ Config.endDelim) :
    windowByte i b sl = some (sl, false) := by
  rw [windowByte_search b sl h, decide_eq_false hb]

theorem slots_set_same {s : State} {m : Nat} {sl : Slot} (h : s.slots[m]? = some sl) : s.slots.set m sl = s.slots :=
  congrArg State.slots (setSlot_same h)

section
variable {s : State} {b : Byte} {q : List Byte} {sl sl' : Slot} {i : Nat}
  (hstate : s.rx.state = .readFixedWindow) (hq : s.rxq = b :: q) (he : s.env = []) (hs : s.slots[s.rx.m]? = some sl)
  (hx : s.rx.i = BitVec.ofNat 5 i)
include hstate hq he hs hx

/-- A step that handles window byte `i`, whatever the clock says (R118, R131). -/
theorem step_windowByte (hi : i ≤ 17) {found : Bool} (hw : windowByte i b sl = some (sl', found)) :
    step s =
      if found then verifyFrame Config.params s.rx.m { s with
        rxq := q, slots := s.slots.set s.rx.m sl', rx := { s.rx with found := true } }
      else if i = 17 then .next (({ s with rxq := q } : State).setSlot s.rx.m sl' |>.finish .missingEndDelimiter)
      else .next { s with
        rxq := q, slots := s.slots.set s.rx.m sl', rx := { s.rx with i := BitVec.ofNat 5 (i + 1), t0 := s.clk } } := by
  have hnat : s.rx.i.toNat = i := by rw [hx, BitVec.toNat_ofNat, Nat.mod_eq_of_lt (by omega)]
  have hle : s.rx.i ≤ 17 := show s.rx.i.toNat ≤ 17 from hnat ▸ hi
  have hlast : s.rx.i = 17 ↔ i = 17 := by rw [← hnat]; exact BitVec.toNat_inj.symm
  have hnext : s.rx.i + 1 = BitVec.ofNat 5 (i + 1) := by rw [hx, BitVec.ofNat_add]; rfl
  rw [step_parser (by simp [hstate]) he, parserRow, hstate]
  simp only [windowRow_byte Config.params hq hle hs (hnat.symm ▸ hw), hlast, hnext]

/-- A window byte before the last that is not the end delimiter: the parser waits for the next (R131). -/
theorem step_windowByte_next (hi : i < 17) (hw : windowByte i b sl = some (sl', false)) :
    step s = .next { s with
      rxq := q, slots := s.slots.set s.rx.m sl', rx := { s.rx with i := BitVec.ofNat 5 (i + 1), t0 := s.clk } } := by
  rw [step_windowByte hstate hq he hs hx hi.le hw, if_neg Bool.false_ne_true, if_neg hi.ne]

/-- The last window byte without the end delimiter ends the receive (R125, R145). -/
theorem step_windowByte_last (hi : i = 17) (hw : windowByte i b sl = some (sl', false)) :
    step s = .next (({ s with rxq := q } : State).setSlot s.rx.m sl' |>.finish .missingEndDelimiter) := by
  rw [step_windowByte hstate hq he hs hx hi.le hw, if_neg Bool.false_ne_true, if_pos hi]

/-- The end delimiter in `None` mode ends the receive with success (R124, R126, R130). -/
theorem step_windowByte_found (hi : i ≤ 17) (hw : windowByte i b sl = some (sl, true)) (hm : sl.crcMode = .none) :
    step s = .next (({ s with rxq := q, rx := { s.rx with found := true } } : State).finish .none) := by
  rw [step_windowByte hstate hq he hs hx hi hw, if_pos rfl, slots_set_same hs]
  exact verifyFrame_none _ hs hm

end

/-! ### Fewer than four folds -/

section
variable (acc : Word32) {bytes : List Byte} (h : bytes.length ≤ 4)
include h

/-- The old value's upper bits, moved down, stand below the bytes received (R68). -/
theorem foldl_fold_low : (bytes.foldl fold acc).toNat % 2 ^ (32 - 8 * bytes.length) = acc.toNat / 2 ^ (8 * bytes.length) := by
  refine Nat.eq_of_testBit_eq fun i => ?_
  rw [Nat.testBit_mod_two_pow, Nat.testBit_div_two_pow, BitVec.testBit_toNat, BitVec.testBit_toNat,
    foldl_fold_getLsbD acc bytes h]
  by_cases hi : i < 32 - 8 * bytes.length
  · simp [hi]
  · have hout : acc.getLsbD (i + 8 * bytes.length) = false := BitVec.getLsbD_of_ge acc _ (by omega)
    simp [hi, hout]

/-- Byte `j` of those received stands at its place at the top (R68). -/
theorem foldl_fold_byte {j : Nat} {b : Byte} (hj : bytes[j]? = some b) :
    ((bytes.foldl fold acc) >>> (32 - 8 * (bytes.length - j))).setWidth 8 = b := by
  obtain ⟨hlt, -⟩ := List.getElem?_eq_some_iff.1 hj
  refine BitVec.eq_of_getLsbD_eq fun i hi => ?_
  rw [BitVec.getLsbD_setWidth, BitVec.getLsbD_ushiftRight, foldl_fold_getLsbD acc bytes h, if_neg (by omega),
    show 32 - 8 * (bytes.length - j) + i - (32 - 8 * bytes.length) = 8 * j + i by omega,
    show (8 * j + i) / 8 = j by omega, show (8 * j + i) % 8 = i by omega, hj]
  simp [hi]

end

end Sys2Proof.Machine
end

section
/-! The statements about commands, frames and bytes (`30_encoding.md`), settled. -/

namespace Sys2Proof.Machine

/-- Settles O1: decoding undoes encoding, and a command is accepted or its code is reserved. -/
theorem decodeEncodeAgree : Obligations.DecodeEncodeAgree :=
  ⟨decode_encode, fun _ _ => encode_op_of_decode, decode_reserved_iff⟩

/-- Settles O21: the bytes an accepted send writes are `wireFrame`, of the payload the slot holds afterwards. -/
theorem sendWritesTheFrame : Obligations.SendWritesTheFrame := by
  intro s m ts sl hi hs hl hc hu
  obtain ⟨ran, rem, -, -, -, ht⟩ := sendFrame_accepted Config.params ts hi hs hl hc hu
  have hslot : (s.afterSend Config.params m sl ts ran rem).slots[m]? =
      some { sl with payload := sendPayload Config.params sl, ctr := sl.ctr + 1 } :=
    List.getElem?_set_self (slot_lt hs)
  exact ⟨_, _, _, ht, hslot, rfl, wireFrame_length sl _ ts hl, wireFrame_getElem? _ ts hl⟩

/-- Settles O37: at each kind of window index the row does what `windowByte` says of that kind. -/
theorem windowIndexDecidesTheUseOfAByte : Obligations.WindowIndexDecidesTheUseOfAByte := by
  intro s b q sl i hstate hq he hs hlen hx hi
  have hlen' : sl.len.toNat ≤ 8 := hlen
  have hnext {sl' : Slot} (h17 : i < 17) (hw : windowByte i b sl = some (sl', false)) :=
    step_windowByte_next hstate hq he hs hx h17 hw
  refine ⟨fun h => ?timestamp, fun h => ?length, fun ⟨h4, h9⟩ => ?identifier, fun ⟨h9, hl⟩ => ?payload,
    fun ⟨hl, hb, h17⟩ => ?search, fun ⟨hl, hb, h17⟩ => ?last, fun ⟨hl, hb, hm⟩ => ?found⟩
  case timestamp => exact hnext (by omega) (windowByte_ts h b sl)
  case length =>
    subst h
    rw [← clampLen_eq rfl]
    exact hnext (by omega) (windowByte_len b sl)
  case identifier => exact hnext (by omega) (windowByte_id h4 h9 b sl)
  case payload =>
    refine ⟨_, hnext (by omega) (windowByte_payload h9 (by omega) b sl hl), ?_, ?_⟩
    · exact memWrite_getElem?_inside sl.payload (i - 9) 0 [b] (by simp) (by simp [Config.payloadSize]; omega)
    · exact fun k hk => memWrite_getElem?_outside sl.payload (i - 9) k [b] (by simp; omega)
  case search =>
    have hstep := hnext h17 (windowByte_dropped sl hl hb)
    rwa [slots_set_same hs] at hstep
  case last =>
    have hstep := step_windowByte_last hstate hq he hs hx h17 (windowByte_dropped sl hl hb)
    rwa [setSlot_same (s := { s with rxq := q }) hs] at hstep
  case found => exact step_windowByte_found hstate hq he hs hx hi (hb ▸ windowByte_endDelim sl hl) hm

/-- Settles O38: what four folds leave and what fewer leave is read off the bits. -/
theorem fourFoldsRebuildTheLittleEndianValue : Obligations.FourFoldsRebuildTheLittleEndianValue :=
  ⟨fold_wireWord, fun acc _ h => ⟨foldl_fold_low acc h.le, fun _ _ hj => foldl_fold_byte acc h.le hj⟩⟩

/-- Settles O2: eight of the commands are encoded operations, and the last one's code is reserved. -/
theorem codesDecodeToTheirOperations : Obligations.CodesDecodeToTheirOperations :=
  ⟨decode_encode (.crc8Compute [1, 2, 3]), decode_encode (.msgInit 1 0xFF 6 .crc8),
    decode_encode (.msgPackv 1 2 [0x1234, 0xABCD]), decode_encode (.msgPackt 1 [0x74]), decode_encode (.xcvBegin ⟨5⟩),
    decode_encode (.xcvSend 1 7), decode_encode (.xcvRecv 1 100), decode_encode .xcvGetfault,
    (decode_reserved_iff { op := 0b00001000 }).2 (by decide)⟩

/-- Settles O4: the block accepts the command and the decoder rejects its code. -/
theorem reservedCodeIsRejected : Obligations.ReservedCodeIsRejected := by
  intro s c cs hidle hp he hop
  rw [step_command hidle hp he, runCommand, (decode_reserved_iff c).2 hop]
  rfl

/-- Settles O18: a bad width, and a missing slot in each of the five operations that name one. -/
theorem badOperandsAreRejected : Obligations.BadOperandsAreRejected := by
  intro s
  refine ⟨fun m w vals hw => execMsgPackv_badWidth hw m vals s, fun m hm i hi => ?_⟩
  have hnone : s.slots[m]? = none := List.getElem?_eq_none hm
  obtain ⟨id, len, mode, rfl⟩ | ⟨w, vals, rfl⟩ | ⟨text, rfl⟩ | ⟨ts, rfl⟩ | ⟨tmo, rfl⟩ := hi
  · exact execMsgInit_missingSlot hnone id len mode
  · exact execMsgPackv_missingSlot hnone w vals
  · exact packBytes_rejected (.inl hnone)
  · exact sendFrame_rejected Config.params ts (.inl hnone)
  · exact receiveFrame_rejected Config.params m tmo (.inr hm)

end Sys2Proof.Machine
end

section
/-! SUPPORT. The remainder along a sequence of bytes (`40_crc8.md` R80 to R84), the checksum that a `CRC8`-mode send puts
into its payload (R85), and the receive of a frame as it was sent. -/

namespace Sys2Proof.Machine

/-! ### The remainder along a sequence -/

/-- The remainder after a first run is where the second starts (R82). -/
theorem crc8_append (T : Byte → Byte) (xs ys : List Byte) : crc8 T (xs ++ ys) = ys.foldl (crc8Step T) (crc8 T xs) :=
  List.foldl_append

/-- One further byte is one table lookup (R80). -/
theorem crc8_concat (T : Byte → Byte) (xs : List Byte) (b : Byte) : crc8 T (xs ++ [b]) = T (crc8 T xs ^^^ b) :=
  crc8_append T xs [b]

theorem crc8_singleton (T : Byte → Byte) (b : Byte) : crc8 T [b] = T b :=
  congrArg T BitVec.zero_xor

/-- With `T_ZERO` zero bytes leave the remainder 0 (R84). -/
theorem crc8_zeros {T : Byte → Byte} (hT : TableZero T) (n : Nat) : crc8 T (List.replicate n 0) = 0 := by
  induction n with
  | zero => rfl
  | succ n ih =>
    rw [List.replicate_succ', crc8_concat, ih]
    exact hT

/-- With `T_LINEAR` the run over the XOR of two sequences is the XOR of their runs, from any two remainders (R84). -/
theorem foldl_crc8Step_zipWith_xor {T : Byte → Byte} (hT : TableLinear T) (xs ys : List Byte) (h : xs.length = ys.length)
    (a b : Byte) :
    (List.zipWith (· ^^^ ·) xs ys).foldl (crc8Step T) (a ^^^ b) =
      xs.foldl (crc8Step T) a ^^^ ys.foldl (crc8Step T) b := by
  induction xs generalizing ys a b with
  | nil =>
    obtain rfl := List.length_eq_zero_iff.1 h.symm
    rfl
  | cons x xs ih =>
    obtain ⟨y, ys, rfl⟩ := List.exists_cons_of_length_eq_add_one h.symm
    have hstep : crc8Step T (a ^^^ b) (x ^^^ y) = crc8Step T a x ^^^ crc8Step T b y :=
      calc T (a ^^^ b ^^^ (x ^^^ y)) = T (a ^^^ x ^^^ (b ^^^ y)) := by ac_rfl
        _ = T (a ^^^ x) ^^^ T (b ^^^ y) := hT _ _
    simp only [List.zipWith_cons_cons, List.foldl_cons, hstep]
    exact ih ys (Nat.succ.inj h) _ _

/-! ### The checksum of a payload -/

/-- What is read from an array is determined by the bytes in range. -/
theorem memRead_congr {n k : Nat} {v w : Vector Byte n} (h : ∀ j, j < k → v[j]? = w[j]?) :
    memRead v 0 k = memRead w 0 k := by
  refine List.ext_getElem? fun j => ?_
  rw [memRead_getElem?, memRead_getElem?]
  split
  · next hj => exact h j hj
  · rfl

theorem memByte_congr {n k : Nat} {v w : Vector Byte n} (h : v[k]? = w[k]?) : memByte v k = memByte w k :=
  congrArg (·.getD 0) h

/-- The checksum never covers its own byte (R85). -/
theorem coveredBytes_le (p : Config.Params) (len : Nat) : coveredBytes p len ≤ len - 1 := by
  unfold coveredBytes
  split <;> omega

/-- The last of the first `len` bytes of the payload is the checksum of those it covers (R85, R129). -/
def CarriesChecksum (p : Config.Params) (len : Nat) (P : Vector Byte Config.payloadSize) : Prop :=
  crc8 p.table (memRead P 0 (coveredBytes p len)) = memByte P (len - 1)

/-- Only the bytes up to the checksum matter. -/
theorem CarriesChecksum.congr {p : Config.Params} {len : Nat} {P Q : Vector Byte Config.payloadSize}
    (hP : CarriesChecksum p len P) (hpos : 0 < len) (h : ∀ k, k < len → Q[k]? = P[k]?) : CarriesChecksum p len Q := by
  have hcov := coveredBytes_le p len
  rw [CarriesChecksum, memRead_congr fun j hj => h j (by omega), memByte_congr (h (len - 1) (by omega))]
  exact hP

/-- The insertion of a `CRC8`-mode send leaves a payload with a passing checksum (R107). -/
theorem sendPayload_carriesChecksum (p : Config.Params) {sl : Slot} (hm : sl.crcMode = .crc8) (h8 : sl.len ≤ 8) :
    CarriesChecksum p sl.len.toNat (sendPayload p sl) := by
  have hin : sl.len.toNat - 1 < Config.payloadSize := by
    have : sl.len.toNat ≤ 8 := h8
    simp only [Config.payloadSize]
    omega
  simp only [CarriesChecksum, sendPayload, hm]
  rw [memRead_memWrite_before _ _ _ _ (coveredBytes_le p _), memByte_eq _ _ hin, memWrite_getElem, if_pos le_rfl,
    Nat.sub_self]
  rfl

/-- A `CRC8`-mode receive whose payload carries its checksum succeeds (R127 to R130). -/
theorem verifyFrame_passes {p : Config.Params} {s : State} {m : Nat} {sl : Slot} (hs : s.slots[m]? = some sl)
    (hm : sl.crcMode = .crc8) (h2 : 2 ≤ sl.len.toNat) (h8 : sl.len.toNat ≤ 8)
    (hP : CarriesChecksum p sl.len.toNat sl.payload) :
    ∃ c, verifyFrame p m s =
      .next ((s.setSlot m { sl with ctr := memByte sl.payload (sl.len.toNat - 2), crc := c }).finish .none) := by
  unfold CarriesChecksum at hP
  exact ⟨_, by rw [verifyFrame_crc8 p hs hm h2 h8, if_pos hP]⟩

/-! ### The receive of a frame as it was sent -/

theorem clampLen_of_le {b : Byte} (h : b ≤ 8) : clampLen b = b := if_pos h

/-- The bytes copied from one payload to the start of another. -/
theorem memWrite_memRead_getElem? {n : Nat} (v P : Vector Byte n) {len k : Nat} (hk : k < len) (hlen : len ≤ n) :
    (memWrite v 0 (memRead P 0 len))[k]? = P[k]? := by
  have hread := memRead_length P 0 len (by omega)
  have hin := memWrite_getElem?_inside v 0 k (memRead P 0 len) (by omega) (by omega)
  rwa [Nat.zero_add, memRead_getElem?, if_pos hk] at hin

/-- The receiver's slot once the frame of `sl` with payload `P` is in, before the verification. -/
def Slot.withSent (sb sl : Slot) (P : Vector Byte Config.payloadSize) (ts : Word32) : Slot :=
  sb.withFrame ts sl.len sl.id (memRead P 0 sl.len.toNat)

theorem Slot.withSent_len (sb : Slot) {sl : Slot} (P : Vector Byte Config.payloadSize) (ts : Word32) (h8 : sl.len ≤ 8) :
    (sb.withSent sl P ts).len = sl.len := clampLen_of_le h8

theorem Slot.withSent_payload (sb : Slot) {sl : Slot} (P : Vector Byte Config.payloadSize) (ts : Word32) (h8 : sl.len ≤ 8)
    {k : Nat} (hk : k < sl.len.toNat) : (sb.withSent sl P ts).payload[k]? = P[k]? :=
  memWrite_memRead_getElem? sb.payload P hk h8

/-- A sent frame at the head of `RXQ` brings the receive to its verification (R117 to R125). -/
theorem receiveFrame_wireFrame (p : Config.Params) {r : State} {b : Nat} {tmo ts : Word32} {sb sl : Slot}
    {P : Vector Byte Config.payloadSize} {rest : List Byte} (hi : r.init = true) (hs : r.slots[b]? = some sb)
    (hr : Move.reset ∉ r.env) (h8 : sl.len ≤ 8) (hq : r.rxq = wireFrame sl P ts ++ rest) :
    ∃ r', receiveFrame p b tmo r = verifyFrame p b r' ∧ r.EnvRan r' rest ∧
      r'.slots[b]? = some (sb.withSent sl P ts) ∧ r'.responses = r.responses := by
  have h8' : sl.len.toNat ≤ 8 := h8
  have hread : (memRead P 0 sl.len.toNat).length = sl.len.toNat := memRead_length P 0 _ (by simpa using h8')
  obtain ⟨r', hrecv, henv, hslots, hrest⟩ := receiveFrame_wire (gap := []) p (tmo := tmo) hi hs hr
    (hread.trans (Nat.min_eq_left h8').symm) List.not_mem_nil (by simpa [hread] using h8')
    (by simpa [wireFrame, memRead, Config.startDelim, Config.endDelim] using hq)
  refine ⟨r', hrecv, henv, ?_, by rw [hrest]⟩
  rw [hslots, List.getElem?_set_self (slot_lt hs)]
  rfl

/-- The verification of a frame as it was sent succeeds, and adds to the slot the counter and the checksum at most
(R126 to R130). -/
theorem verifyFrame_withSent (p : Config.Params) {r : State} {b : Nat} {ts : Word32} {sb sl : Slot}
    (hs : r.slots[b]? = some (sb.withSent sl (sendPayload p sl) ts)) (h8 : sl.len ≤ 8)
    (hc : sl.crcMode = .crc8 → 2 ≤ sl.len) (hm : sb.crcMode = .none ∨ sb.crcMode = sl.crcMode) :
    ∃ ctr crc, verifyFrame p b r =
        .next ((r.setSlot b { sb.withSent sl (sendPayload p sl) ts with ctr := ctr, crc := crc }).finish .none) ∧
      (sb.crcMode = .crc8 → ctr = sl.ctr) := by
  cases hsb : sb.crcMode with
  | none =>
    refine ⟨sb.ctr, sb.crc, ?_, nofun⟩
    rw [verifyFrame_none p hs hsb]
    exact congrArg (fun s : State => Host.Outcome.next (s.finish .none)) (setSlot_same hs).symm
  | crc8 =>
    have hsl : sl.crcMode = .crc8 := by simpa [hsb, eq_comm] using hm
    have h2 := hc hsl
    have h2' : 2 ≤ sl.len.toNat := h2
    have hlen : (sb.withSent sl (sendPayload p sl) ts).len = sl.len := Slot.withSent_len sb _ ts h8
    have hsum : CarriesChecksum p sl.len.toNat (sb.withSent sl (sendPayload p sl) ts).payload :=
      (sendPayload_carriesChecksum p hsl h8).congr (by omega) fun k => Slot.withSent_payload sb _ ts h8
    have hctr : memByte (sb.withSent sl (sendPayload p sl) ts).payload (sl.len.toNat - 2) = sl.ctr := by
      obtain ⟨hsent, -, -⟩ := sendPayload_crc8 p sl hsl h2 h8
      rw [memByte, Slot.withSent_payload sb _ ts h8 (by omega), hsent, Option.getD_some]
    obtain ⟨crc, hv⟩ := verifyFrame_passes hs hsb (hlen ▸ h2') (hlen ▸ h8) (hlen ▸ hsum)
    exact ⟨_, crc, hv, fun _ => hlen ▸ hctr⟩

end Sys2Proof.Machine
end

section
/-! The statements about the checksum (`40_crc8.md`), settled. -/

namespace Sys2Proof.Machine

/-- Settles O41: the frame brings the receive to its verification, and the payload it carries passes. -/
theorem sentFrameIsReceivedAsSent : Obligations.SentFrameIsReceivedAsSent := by
  intro s r a b ts tmo sl sb hsi hsa h8 hc hu hri hrb hm hr
  obtain ⟨ran, rem, -, -, -, hsend⟩ := sendFrame_accepted Config.params ts hsi hsa h8 hc hu
  refine ⟨_, wireFrame sl (sendPayload Config.params sl) ts, _, hsend, rfl, List.getElem?_set_self (slot_lt hsa), ?_⟩
  intro rest hq
  obtain ⟨r', hrecv, henv, hslot, hresp⟩ := receiveFrame_wireFrame Config.params (tmo := tmo) hri hrb hr h8 hq
  obtain ⟨ctr, crc, hverify, hctr⟩ := verifyFrame_withSent Config.params hslot h8 hc hm
  have hlen := Slot.withSent_len sb (sendPayload Config.params sl) ts h8
  exact ⟨_, _, hrecv.trans hverify, List.getElem?_set_self (slot_lt hslot), rfl, hlen, rfl,
    fun k => Slot.withSent_payload sb _ ts h8, hctr, rfl, congrArg (· ++ [(⟨.ok, none⟩ : Response)]) hresp, henv⟩

/-- Settles O11: induction on the zero bytes, on the two sequences together, and injectivity at the last byte. -/
theorem namedTablePropertiesBuyWhatTheSpecSays : Obligations.NamedTablePropertiesBuyWhatTheSpecSays := by
  intro T
  refine ⟨fun hT => ⟨crc8_zeros hT, fun n xs => ?_⟩, fun hT xs ys h => ?_, fun ⟨hinj, _⟩ xs a b hab heq => ?_⟩
  · rw [crc8_append, crc8_zeros hT]
    rfl
  · exact foldl_crc8Step_zipWith_xor hT xs ys h 0 0
  · rw [crc8_concat, crc8_concat] at heq
    exact hab ((BitVec.xor_right_inj _).1 (hinj _ _ heq))

/-- Settles O9: the function is the remainder itself. -/
theorem crc8ComputeIsTheTableFold : Obligations.Crc8ComputeIsTheTableFold :=
  ⟨crc8 Config.params.table, rfl, crc8_concat _, fun _ _ => rfl⟩

/-- Settles O10: two bytes are one and a further one. -/
theorem crc8CasesHoldForEveryTable : Obligations.Crc8CasesHoldForEveryTable := by
  intro T
  refine ⟨rfl, crc8_singleton T, fun b0 b1 => ?_, crc8_append T⟩
  calc crc8 T [b0, b1] = T (crc8 T [b0] ^^^ b1) := crc8_concat T [b0] b1
    _ = T (T b0 ^^^ b1) := by rw [crc8_singleton]

end Sys2Proof.Machine
end

section
/-! SUPPORT. What `MSG.INIT` answers to a legal and to an illegal length, and what the two pack operations answer, in the
words of `41_message.md` R90 to R95. -/

namespace Sys2Proof.Machine

/-! ### Construction -/

theorem execMsgInit_constructs {s : State} {m : Nat} {len : Byte} (hm : m < s.slots.length) (hl : len ≤ 8) (id : Word32)
    (mode : CrcMode) : execMsgInit m id len mode s = .next (s.setSlot m (constructSlot id len mode)).ok := by
  obtain ⟨hbad | hbad, -⟩ | ⟨-, -, he⟩ := execMsgInit_cases m id len mode s
  · exact absurd hl (BitVec.not_le.2 hbad)
  · exact absurd hm (Nat.not_lt.2 hbad)
  · exact he

theorem execMsgInit_badLength {len : Byte} (hl : 8 < len) (m : Nat) (id : Word32) (mode : CrcMode) (s : State) :
    execMsgInit m id len mode s = .next s.reject := by
  obtain ⟨-, he⟩ | ⟨hle, -, -⟩ := execMsgInit_cases m id len mode s
  · exact he
  · exact absurd hl (BitVec.not_lt.2 hle)

/-! ### The payload after a write from offset 0 -/

theorem PayloadFrom.getElem?_written {v P : Vector Byte Config.payloadSize} {bs : List Byte} {b : Byte} {j : Nat}
    (hP : PayloadFrom v bs P) (hj : bs[j]? = some b) (hlen : bs.length ≤ Config.payloadSize) : P[j]? = some b := by
  obtain ⟨hlt, -⟩ := List.getElem?_eq_some_iff.1 hj
  rw [Vector.getElem?_eq_getElem (hlt.trans_le hlen), hP, hj, Option.getD_some]

theorem PayloadFrom.getElem_beyond {v P : Vector Byte Config.payloadSize} {bs : List Byte} {k : Nat}
    (hP : PayloadFrom v bs P) (hk : k < Config.payloadSize) (hlen : bs.length ≤ k) : P[k] = v[k] := by
  rw [hP k hk, List.getElem?_eq_none hlen, Option.getD_none]

/-! ### Packs -/

/-- A capacity violation in the words of R92. -/
theorem packCapacity_lt_iff (c : CrcMode) (n : Nat) : packCapacity c < n ↔ c = .crc8 ∧ 6 < n ∨ 8 < n := by
  cases c with
  | none => simp [packCapacity]
  | crc8 => simp only [packCapacity, true_and]; omega

theorem packCapacity_le_payloadSize (c : CrcMode) : packCapacity c ≤ Config.payloadSize := by
  cases c with
  | none => exact le_rfl
  | crc8 => exact Nat.le_add_right 6 2

/-- A width-1 element is its low byte, so bytes packed with width 1 are the bytes themselves (R94). -/
theorem elementBytes_one (text : List Byte) : elementBytes 1 (text.map (·.setWidth 64)) = text := by
  induction text with
  | nil => rfl
  | cons b text ih =>
    have hb : leBytes 1 (b.setWidth 64) = [b] := by simp [leBytes, leByte]
    rw [elementBytes, List.map_cons, List.flatMap_cons, hb]
    exact congrArg (b :: ·) ih

section
variable {s : State} {m : Nat} {sl : Slot} {bs : List Byte} {i : Instr} (hi : Packs m bs i)
include hi

/-- Either pack, when it fits, writes its bytes from payload offset 0, answers `OK` and changes nothing else (R92 to R95). -/
theorem exec_packs_fits (hs : s.slots[m]? = some sl) (hlen : bs.length ≤ packCapacity sl.crcMode) :
    ∃ P, PayloadFrom sl.payload bs P ∧ exec i s = .next (s.setSlot m { sl with payload := P }).ok :=
  ⟨_, memWrite_payloadFrom sl.payload bs, (exec_packs hi).trans (packBytes_fits hs hlen)⟩

/-- Either pack is rejected without a slot, or with more bytes than the slot's capacity (R73, R92). -/
theorem exec_packs_rejected
    (h : s.slots[m]? = none ∨ ∃ sl, s.slots[m]? = some sl ∧ packCapacity sl.crcMode < bs.length) :
    exec i s = .next s.reject := (exec_packs hi).trans (packBytes_rejected h)

end

end Sys2Proof.Machine
end

section
/-! The statements about the message slots (`41_message.md`), settled. -/

namespace Sys2Proof.Machine

/-- Settles O14: byte `i` of element `e` is byte `e*w + i` of those packed. -/
theorem packvWritesElementsLittleEndian : Obligations.PackvWritesElementsLittleEndian := by
  intro s m w vals sl hs hw hfit
  have hlen := elementBytes_length w vals
  rw [← packCapacity_eq, ← hlen] at hfit
  obtain ⟨P, hP, hexec⟩ := exec_packs_fits (.inr ⟨w, vals, hw, rfl, rfl⟩) hs hfit
  refine ⟨P, hexec, fun e i v hv hi => ?_, fun k hk hn => hP.getElem_beyond hk (hlen.trans_le hn)⟩
  exact hP.getElem?_written (elementBytes_getElem? w e i vals v hv hi)
    (hfit.trans (packCapacity_le_payloadSize sl.crcMode))

/-- Settles O15: the text is what `MSG.PACKV` packs from its bytes as elements of width 1. -/
theorem packtWritesRawBytes : Obligations.PacktWritesRawBytes := by
  intro s m text
  have htext : Packs m text (.msgPackt m text) := .inl rfl
  have hvals : Packs m text (.msgPackv m 1 (text.map (·.setWidth 64))) :=
    .inr ⟨1, _, by decide, rfl, (elementBytes_one text).symm⟩
  simp only [← packCapacity_eq]
  exact ⟨fun sl => exec_packs_fits htext, exec_packs_rejected htext, (exec_packs htext).trans (exec_packs hvals).symm, rfl⟩

/-- Settles O16: the two clauses are the two sides of the capacity check, which does not read `LEN`. -/
theorem packCapacityIsSixOrEight : Obligations.PackCapacityIsSixOrEight := by
  intro s m sl i bytes hs hi
  rw [← packCapacity_lt_iff]
  refine ⟨fun hover => exec_packs_rejected hi (.inr ⟨sl, hs, hover⟩), fun hfit => ?_⟩
  obtain ⟨P, -, hexec⟩ := exec_packs_fits hi hs (Nat.not_lt.1 hfit)
  exact ⟨_, hexec, rfl⟩

/-- Settles O17: the second pack finds the slot with the first one's payload, and writes over it from offset 0 again. -/
theorem packsOverwriteFromOffsetZero : Obligations.PacksOverwriteFromOffsetZero := by
  intro s m sl i1 i2 b1 b2 hs hi1 hi2 hfit1 hfit2
  rw [← packCapacity_eq] at hfit1 hfit2
  obtain ⟨P1, hP1, hexec1⟩ := exec_packs_fits hi1 hs hfit1
  have hslot1 : (s.setSlot m { sl with payload := P1 }).ok.slots[m]? = some { sl with payload := P1 } :=
    List.getElem?_set_self (slot_lt hs)
  obtain ⟨P2, hP2, hexec2⟩ := exec_packs_fits hi2 hslot1 hfit2
  refine ⟨_, _, P2, hexec1, hexec2, List.getElem?_set_self (slot_lt hslot1), fun k hk => ?_⟩
  rw [hP2 k hk, hP1 k hk]

/-- Settles O12: with a slot and a legal length the operation constructs the slot. -/
theorem initConstructsTheSlot : Obligations.InitConstructsTheSlot :=
  fun _ _ id _ mode hm hl => execMsgInit_constructs hm hl id mode

/-- Settles O13: the length is checked before anything is written. -/
theorem initRejectsLengthAboveEight : Obligations.InitRejectsLengthAboveEight :=
  fun s m id _ mode hl => execMsgInit_badLength hl m id mode s

end Sys2Proof.Machine
end

section
/-! SUPPORT. The byte that `XCV.GETFAULT` answers (`42_control.md` R102). -/

namespace Sys2Proof.Machine

/-- The 3-bit code of a fault (R21), zero-extended to the byte of the response. -/
def faultByte (f : FaultReason) : Byte := (faultCode f).setWidth 8

theorem exec_xcvGetfault (s : State) : exec .xcvGetfault s = .next (s.respond .ok (some (faultByte s.fault))) := rfl

end Sys2Proof.Machine
end

section
/-! The statements about the control of the Transceiver (`42_control.md`), settled. -/

namespace Sys2Proof.Machine

/-- Settles O19: the operation has no case to tell apart, so the state it answers is the same whether or not `INIT` was
set before. -/
theorem beginMakesTheTransceiverReady : Obligations.BeginMakesTheTransceiverReady :=
  fun _ _ => rfl

/-- Settles O20: the byte answered is a function of `FAULT` alone, and its value at each of the five reasons is the code. -/
theorem getFaultReadsTheFaultRegister : Obligations.GetFaultReadsTheFaultRegister :=
  fun s => ⟨faultByte s.fault, exec_xcvGetfault s, congrArg faultByte, congrArg faultByte, congrArg faultByte,
    congrArg faultByte, congrArg faultByte⟩

end Sys2Proof.Machine
end

section
/-! SUPPORT. A send as its caller sees it (`43_send.md`): the two ways it is rejected, the scratch buffer against the frame,
and the reserved bytes of a `CRC8`-mode frame. -/

namespace Sys2Proof.Machine

/-! ### Acceptance and rejection -/

/-- Of a slot that exists, a send fails exactly the preconditions of R108 and R111. -/
theorem not_sendAccepted_iff (init : Bool) (sl : Slot) :
    ¬ (init = true ∧ (sl.crcMode = .crc8 → 2 ≤ sl.len)) ↔ init = false ∨ sl.crcMode = .crc8 ∧ sl.len < 2 := by
  rw [not_and_or, Bool.not_eq_true, Classical.not_imp, BitVec.not_le]

theorem exec_xcvSend_rejected {s : State} {m : Nat} {sl : Slot} (ts : Word32) (hs : s.slots[m]? = some sl)
    (h : s.init = false ∨ sl.crcMode = .crc8 ∧ sl.len < 2) : exec (.xcvSend m ts) s = .next s.reject :=
  sendFrame_rejected Config.params ts (.inr (h.imp_right fun hlen => ⟨sl, hs, hlen⟩))

/-! ### The bytes of the frame -/

/-- Up to the frame's length the scratch buffer holds the frame (R105). -/
theorem serialize_getElem?_frame (S : Vector Byte Config.scratchSize) {sl : Slot} (P : Vector Byte Config.payloadSize)
    (ts : Word32) {j : Nat} (hl : sl.len ≤ 8) (hj : j < 11 + sl.len.toNat) :
    (serialize S sl P ts)[j]? = (wireFrame sl P ts)[j]? := by
  rw [← memRead_serialize S sl P ts hl, memRead_getElem?, if_pos hj]

/-- Byte `LEN-2` of the payload, at frame offset `8 + LEN`, carries the counter before the increment (R107, R110). -/
theorem wireFrame_counter (p : Config.Params) {sl : Slot} (ts : Word32) (hm : sl.crcMode = .crc8) (h2 : 2 ≤ sl.len)
    (h8 : sl.len ≤ 8) : (wireFrame sl (sendPayload p sl) ts)[8 + sl.len.toNat]? = some sl.ctr := by
  have h2' : 2 ≤ sl.len.toNat := h2
  obtain ⟨-, -, -, -, hpayload, -⟩ := wireFrame_getElem? (sendPayload p sl) ts h8
  obtain ⟨hctr, -, -⟩ := sendPayload_crc8 p sl hm h2 h8
  rw [show 8 + sl.len.toNat = 10 + (sl.len.toNat - 2) by omega, hpayload _ (by omega), hctr]

/-- What a `CRC8`-mode send of `n` data bytes puts on the wire as payload: the data, the counter, the checksum of the data
(R107, D2). -/
theorem memRead_sendPayload_crc8 (p : Config.Params) {sl : Slot} {n : Nat} (hp : p.coversCounter = false)
    (hm : sl.crcMode = .crc8) (hlen : sl.len.toNat = n + 2) (hn : n + 2 ≤ Config.payloadSize) :
    memRead (sendPayload p sl) 0 (n + 2) =
      memRead sl.payload 0 n ++ [sl.ctr, crc8 p.table (memRead sl.payload 0 n)] := by
  have hcovered : coveredBytes p (n + 2) = n := by rw [coveredBytes, hp]; rfl
  have hctr : memRead (memWrite sl.payload n [sl.ctr]) 0 (n + 1) = memRead sl.payload 0 n ++ [sl.ctr] :=
    memRead_memWrite sl.payload n [sl.ctr] (by simp; omega)
  have hsum := memRead_memWrite (memWrite sl.payload n [sl.ctr]) (n + 1) [crc8 p.table (memRead sl.payload 0 n)] hn
  have hdata := memRead_memWrite_before sl.payload n n [sl.ctr] le_rfl
  simp only [sendPayload, hm, hlen, hcovered, Nat.add_sub_cancel, hdata]
  rw [hctr, List.append_assoc] at hsum
  exact hsum

/-- A `CRC8`-mode slot with no data bytes sends the counter and the remainder of no bytes, 0 (R112 case 3, R82 case 1). -/
theorem wireFrame_of_no_data (p : Config.Params) {sl : Slot} (ts : Word32) (hp : p.coversCounter = false)
    (hm : sl.crcMode = .crc8) (hlen : sl.len = 2) :
    wireFrame sl (sendPayload p sl) ts = 0xAA :: (wireHeader ts 2 sl.id ++ [sl.ctr, 0x00, 0xBB]) := by
  have htake : (sendPayload p sl).toList.take sl.len.toNat = [sl.ctr, 0x00] := by
    rw [hlen]
    exact memRead_sendPayload_crc8 (n := 0) p hp hm (congrArg BitVec.toNat hlen) (by decide)
  rw [wireFrame, htake, hlen, List.append_assoc]
  rfl

end Sys2Proof.Machine
end

section
/-! The statements about the send (`43_send.md`), settled. -/

namespace Sys2Proof.Machine

/-- Settles O22: the next state is `State.afterSend`, whose payload the insertion made and whose scratch buffer the
serialization. -/
theorem sendChangesCounterAndReservedBytesOnly : Obligations.SendChangesCounterAndReservedBytesOnly := by
  intro s m ts sl hi hs hl hc hu
  obtain ⟨ran, rem, he, -, -, ht⟩ := sendFrame_accepted Config.params ts hi hs hl hc hu
  have hlen := wireFrame_length sl (sendPayload Config.params sl) ts hl
  refine ⟨_, wireFrame sl (sendPayload Config.params sl) ts, _, _, ht, rfl, ⟨ran, he, rfl, rfl⟩,
    sendPayload_none Config.params sl, fun hm => ?_, fun j hj => ?_, fun j hj => ?_⟩
  · obtain ⟨hctr, hsum, hothers⟩ := sendPayload_crc8 Config.params sl hm (hc hm) hl
    exact ⟨hctr, hsum rfl, hothers⟩
  · exact serialize_getElem?_frame s.scratch _ ts hl (hlen ▸ hj)
  · exact serialize_getElem?_beyond s.scratch sl _ ts j hl (hlen ▸ hj)

/-- Settles O23: the slot of the next state has the counter plus 1, the frame was made from the slot before; a rejected send
writes no slot. -/
theorem sendIncrementsTheCounter : Obligations.SendIncrementsTheCounter := by
  intro s m ts sl hs hl
  refine ⟨fun ⟨hi, hc⟩ hu => ?accepted, fun h => ?rejected⟩
  case accepted =>
    obtain ⟨ran, rem, -, -, -, ht⟩ := sendFrame_accepted Config.params ts hi hs hl hc hu
    exact ⟨_, _, _, ht, List.getElem?_set_self (slot_lt hs), BitVec.toNat_add sl.ctr 1,
      fun j hj => List.getElem?_set_ne hj.symm, rfl, fun hm => wireFrame_counter Config.params ts hm (hc hm) hl⟩
  case rejected => exact ⟨_, exec_xcvSend_rejected ts hs ((not_sendAccepted_iff s.init sl).1 h), rfl⟩

/-- Settles O25: the frame is `wireFrame`, of a payload with no data bytes. -/
theorem sendOfEmptyDataIsTableIndependent : Obligations.SendOfEmptyDataIsTableIndependent := by
  intro s m ts sl hi hs hm hlen hu
  have h2 : 2 ≤ sl.len := by rw [hlen]; decide
  have h8 : sl.len ≤ 8 := by rw [hlen]; decide
  have hturns : Uncut (12 + sl.len.toNat) s.env := by rwa [hlen]
  obtain ⟨ran, rem, -, -, -, ht⟩ := sendFrame_accepted Config.params ts hi hs h8 (fun _ => h2) hturns
  exact ⟨_, ht, congrArg (s.txq ++ ·) (wireFrame_of_no_data Config.params ts rfl hm hlen)⟩

/-- Settles O24: a rejection is the response and nothing else. -/
theorem sendIsRejectedWithoutEffect : Obligations.SendIsRejectedWithoutEffect :=
  fun _ _ ts _ hs h => exec_xcvSend_rejected ts hs h

end Sys2Proof.Machine
end

section
/-! SUPPORT. What a receive without a reset leaves, a parser that waits, and the procedure of `XCV.RECV` as a run of the
machine (`44_receive.md` R115, R118, R119, R131). -/

namespace Sys2Proof.Machine

/-! ### What a receive without a reset leaves -/

section
variable {m k : Nat} {s t : State}

theorem Received.slots_other (h : Received m k s t) {j : Nat} (hj : j ≠ m) : t.slots[j]? = s.slots[j]? := by
  obtain ⟨sl, sl', -, ht, -⟩ := h.slot
  rw [ht, List.getElem?_set_ne hj.symm]

theorem Received.crcMode_eq (h : Received m k s t) :
    (t.slots[m]?).map Slot.crcMode = (s.slots[m]?).map Slot.crcMode := by
  obtain ⟨sl, sl', hs, ht, hmode, -⟩ := h.slot
  rw [ht, List.getElem?_set_self (slot_lt hs), hs, Option.map_some, Option.map_some, hmode]

/-- With more bytes there at the start than are consumed, some are left. -/
theorem Received.rxq_ne_nil (h : Received m k s t) (hk : k < s.rxq.length) : t.rxq ≠ [] := by
  obtain ⟨ran, -, -, hq, -⟩ := h.env
  rw [hq, Ne, List.drop_eq_nil_iff, List.length_append]
  omega

end

/-- The end of a receive is `OK` or `FAIL` (R130, R142). -/
theorem statusOf_ne_invalidConfig (f : FaultReason) : statusOf f ≠ .invalidConfig := by
  cases f <;> exact nofun

/-! ### A parser that waits -/

section
variable {s : State} (hstate : s.rx.state = .readFixedWindow)
include hstate

/-- The block's turn while a window byte is awaited is the row of `ReadFixedWindow` (R131). -/
theorem step_window (he : s.env = [] ∨ ∃ e, s.env = .block :: e) :
    step s = windowRow Config.params { s with env := s.env.tail } := by
  have hbusy : ({ s with env := s.env.tail } : State).rx.state ≠ .idle := by simp [hstate]
  rw [step_block he, blockMove, fetch_busy hbusy]
  simp only [parserRow, hstate]

/-- With no byte there and nothing scheduled, the budget decides (R119). -/
theorem step_window_nil (hq : s.rxq = []) (he : s.env = []) :
    step s = if budgetSpent s then .next (s.finish .timeout) else .next s := by
  have hs : ({ s with env := s.env.tail } : State) = s := by rw [he, List.tail_nil, ← he]
  rw [step_window hstate (.inl he), hs, windowRow_nil _ hq]

theorem step_window_expired (hq : s.rxq = []) (he : s.env = []) (hb : s.rx.tmo ≤ s.clk - s.rx.t0) :
    step s = .next (s.finish .timeout) :=
  (step_window_nil hstate hq he).trans (if_pos (decide_eq_true hb))

theorem step_window_waits (hq : s.rxq = []) (he : s.env = []) (hb : budgetSpent s = false) : step s = .next s := by
  rw [step_window_nil hstate hq he, hb, if_neg Bool.false_ne_true]

end

/-- From every reading of the clock an advance leads to the end of a budget, modulo `2^32` (R119, D14). -/
theorem exists_advance_spends_budget (clk t0 tmo : Word32) : ∃ ms, tmo ≤ clk + ms - t0 :=
  ⟨tmo + t0 - clk, by bv_omega⟩

/-! ### The run of the machine through one wait -/

/-- Some number of steps of the machine leads from the one state to the other. -/
abbrev Reaches : State → State → Prop := Relation.ReflTransGen fun s s' => step s = .next s'

theorem Reaches.run {s t : State} (h : Reaches s t) : ∃ k, Sys2Proof.core.run k s = .next t := by
  induction h using Relation.ReflTransGen.head_induction_on with
  | refl => exact ⟨0, rfl⟩
  | head hstep _ ih =>
    obtain ⟨k, hk⟩ := ih
    exact ⟨k + 1, (run_succ Sys2Proof.core k _ _ hstep).trans hk⟩

/-- From `s` the machine goes where the end of a wait leads: to the state in which the receive is cut off, ended by the
budget or still waiting; or, with a byte, to whatever the row that handles the byte answers (R131). -/
def WaitReached (s : State) : WaitEnd → Prop
  | .byte b s' => ∀ t, windowRow Config.params { s' with rxq := b :: s'.rxq } = .next t → Reaches s t
  | .expired s' => Reaches s (s'.finish .timeout)
  | .cutOff s' => Reaches s s'
  | .waiting s' => Reaches s s'

theorem WaitReached.of_step {s s' : State} (h : step s = .next s') {w : WaitEnd} (hw : WaitReached s' w) :
    WaitReached s w := by
  cases w with
  | byte b u => exact fun t ht => .head h (hw t ht)
  | expired | cutOff | waiting => exact .head h hw

/-- The poll finds neither a byte nor the budget spent (R118, R119). -/
theorem poll_waiting {s s' : State} (h : poll s = .waiting s') : s.rxq = [] ∧ budgetSpent s = false := by
  cases hq : s.rxq with
  | cons b q => cases (poll_cons hq).symm.trans h
  | nil =>
    rw [poll_nil hq] at h
    cases hb : budgetSpent s with
    | true => rw [hb, if_pos rfl] at h; cases h
    | false => exact ⟨rfl, rfl⟩

/-- A step that is a row of `ReadFixedWindow` does what the poll finds (R118, R119). -/
theorem waitReached_poll {s u : State} (h : step s = windowRow Config.params u) : WaitReached s (poll u) := by
  cases hq : u.rxq with
  | cons b q =>
    rw [poll_cons hq]
    have hu : ({ u with rxq := b :: q } : State) = u := by rw [← hq]
    exact fun t ht => .single (h.trans (hu ▸ ht))
  | nil =>
    rw [windowRow_nil _ hq] at h
    rw [poll_nil hq]
    cases hb : budgetSpent u with
    | true => exact .single (by rw [h, hb, if_pos rfl])
    | false => exact .single (by rw [h, hb, if_neg Bool.false_ne_true])

/-- The wait along a schedule is a run of the machine: each move of the schedule is one step. -/
theorem waitReached_awaitByte (e : List Move) (s : State) (hstate : s.rx.state = .readFixedWindow) :
    WaitReached { s with env := e } (awaitByte e s) := by
  induction e generalizing s with
  | nil => exact waitReached_poll (step_window (s := { s with env := [] }) hstate (.inl rfl))
  | cons x e ih =>
    cases x with
    | arrive b => exact .of_step (step_arrive rfl) (ih (s.arrive b) hstate)
    | advance ms => exact .of_step (step_advance rfl) (ih (s.advance ms) hstate)
    | reset => exact Relation.ReflTransGen.single (step_reset rfl)
    | block =>
      have hrow : step { s with env := .block :: e } = windowRow Config.params { s with env := e } :=
        step_window (s := { s with env := .block :: e }) hstate (.inr ⟨e, rfl⟩)
      rw [awaitByte]
      split
      · next hw =>
        obtain ⟨hq, hb⟩ := poll_waiting hw
        refine .of_step ?_ (ih s hstate)
        rw [hrow, windowRow_nil _ hq, hb, if_neg Bool.false_ne_true]
      · exact waitReached_poll hrow

/-! ### The run of the machine through the window -/

theorem window_index_toNat {i : Nat} (hi : i ≤ 17) : (BitVec.ofNat 5 i).toNat = i := by
  rw [BitVec.toNat_ofNat, Nat.mod_eq_of_lt (by omega)]

/-- The row that handles byte `b` at index `i` of the window, from the state in which the wait for it ended (R120 to R125,
R131). -/
theorem windowRow_afterWait (p : Config.Params) {m i : Nat} {s : State} {ran rem : List Move} {b : Byte} {q : List Byte}
    {sl sl' : Slot} {found : Bool} (hm : s.rx.m = m) (hi : i ≤ 17) (hs : s.slots[m]? = some sl)
    (hw : windowByte i b sl = some (sl', found)) :
    windowRow p ((s.startWait i).afterMoves ran rem (b :: q)) =
      if found then verifyFrame p m { ((s.startWait i).afterMoves ran rem q).setSlot m sl' with
        rx := { (s.startWait i).rx with found := true } }
      else if i = 17 then .next ((((s.startWait i).afterMoves ran rem q).setSlot m sl').finish .missingEndDelimiter)
      else .next ((((s.startWait i).afterMoves ran rem q).setSlot m sl').startWait (i + 1)) := by
  subst hm
  have hnat := window_index_toNat hi
  have hle : BitVec.ofNat 5 i ≤ 17 := show (BitVec.ofNat 5 i).toNat ≤ 17 by rwa [hnat]
  have hlast : BitVec.ofNat 5 i = 17 ↔ i = 17 := by rw [← BitVec.toNat_inj, hnat]; rfl
  have hnext : BitVec.ofNat 5 i + 1 = BitVec.ofNat 5 (i + 1) := (BitVec.ofNat_add i 1).symm
  rw [windowRow_byte p (s := (s.startWait i).afterMoves ran rem (b :: q)) rfl hle hs (hnat.symm ▸ hw)]
  simp only [State.startWait, State.afterMoves, hlast, hnext]
  rfl

/-- What a pass of the window loop does with the byte its wait gave, where it does not stop the machine (R120 to R125). -/
theorem receiveWindow_byte {p : Config.Params} {m n i : Nat} {s t : State} {ran rem : List Move} {b : Byte}
    {q : List Byte} (hi : 18 - (n + 1) = i)
    (ha : awaitByte s.env (s.startWait i) = .byte b ((s.startWait i).afterMoves ran rem q))
    (h : receiveWindow p m (n + 1) s = .next t) :
    ∃ sl sl' found, s.slots[m]? = some sl ∧ windowByte i b sl = some (sl', found) ∧
      (if found then verifyFrame p m { ((s.startWait i).afterMoves ran rem q).setSlot m sl' with
          rx := { (s.startWait i).rx with found := true } }
        else receiveWindow p m n (((s.startWait i).afterMoves ran rem q).setSlot m sl')) = .next t := by
  rw [receiveWindow_succ, hi, ha] at h
  dsimp only at h
  split at h
  · cases h
  · next sl hs =>
    split at h
    · cases h
    · next sl' hw => exact ⟨sl, sl', false, hs, hw, h⟩
    · next sl' hw => exact ⟨sl, sl', true, hs, hw, h⟩

/-- The window loop is a run of the machine from the state before its first wait: at the end of each wait the row and the
loop do the same (R115, R131). -/
theorem receiveWindow_reached {m n : Nat} {s t : State} (hpos : 0 < n) (hn : n ≤ 18)
    (hstate : s.rx.state = .readFixedWindow) (hm : s.rx.m = m) (h : receiveWindow Config.params m n s = .next t) :
    Reaches (s.startWait (18 - n)) t := by
  induction n generalizing s with
  | zero => cases hpos
  | succ n ih =>
    generalize hi : 18 - (n + 1) = i
    have hwait := waitReached_awaitByte s.env (s.startWait i) hstate
    obtain ⟨ran, rem, b, q, -, -, -, ha⟩ | ⟨ran, rem, -, -, -, -, ha⟩ | ⟨ran, rem, -, ha⟩ | ⟨-, -, -, ha⟩ :=
      awaitByte_cases s.env (s.startWait i)
    case inr.inl | inr.inr.inl | inr.inr.inr =>
      rw [receiveWindow_succ, hi, ha] at h
      rw [ha] at hwait
      cases h
      exact hwait
    obtain ⟨sl, sl', found, hs, hw, hnext⟩ := receiveWindow_byte hi ha h
    have hrow := windowRow_afterWait Config.params (ran := ran) (rem := rem) (q := q) hm (by omega) hs hw
    rw [ha] at hwait
    cases found with
    | true => exact hwait t (hrow.trans hnext)
    | false =>
      rw [if_neg Bool.false_ne_true] at hrow hnext
      by_cases hlast : n = 0
      · subst hlast
        exact hwait t (hrow.trans ((if_pos hi.symm).trans hnext))
      · have hgo := hwait _ (hrow.trans (if_neg (by omega)))
        rw [show i + 1 = 18 - n by omega] at hgo
        exact hgo.trans (ih (by omega) (by omega) hstate hm hnext)

/-- The procedure of `XCV.RECV` is the row of `AwaitStart` and a run of the machine (R115, R131). -/
theorem receiveFrame_reached {m : Nat} {tmo : Word32} {s t : State} (hi : s.init = true) (hm : m < s.slots.length)
    (h : receiveFrame Config.params m tmo s = .next t) :
    ∃ s1, awaitStartRow (s.acceptReceive m tmo) = .next s1 ∧ Reaches s1 t := by
  have hqa : (s.acceptReceive m tmo).rxq = s.rxq := rfl
  unfold awaitStartRow
  cases hq : s.rxq with
  | nil =>
    cases (receiveFrame_empty Config.params tmo hi hm hq).symm.trans h
    simp only [hqa, hq]
    exact ⟨_, rfl, .refl⟩
  | cons b q =>
    simp only [hqa, hq]
    by_cases hb : b = Config.startDelim
    · subst hb
      rw [receiveFrame_start Config.params tmo hi hm hq] at h
      rw [if_pos rfl]
      exact ⟨_, rfl, receiveWindow_reached (by omega) le_rfl rfl rfl h⟩
    · cases (receiveFrame_stray Config.params tmo hi hm hq hb).symm.trans h
      rw [if_neg hb]
      exact ⟨_, rfl, .refl⟩

/-- Where the schedule is exhausted and a receive waits, it waits for ever (R155). -/
theorem Waits.state_eq {s t : State} {m : Nat} {tmo : Word32} {q : List Byte} (h : Waits (s.inWindow m tmo q) t) :
    t.rx.state = .readFixedWindow ∧ t.rxq = [] ∧ t.env = [] ∧ t.responses = s.responses ∧ step t = .next t := by
  obtain ⟨hrx, -, -, hresp, hq, he, hb⟩ := h
  have hstate : t.rx.state = .readFixedWindow := by rw [hrx]; rfl
  exact ⟨hstate, hq, he, hresp, step_window_waits hstate hq he hb⟩

theorem WasCutOff.idle {s t : State} (h : WasCutOff s t) : t.rx.state = .idle := by
  obtain ⟨ran, s0, -, rfl, -⟩ := h
  rfl

end Sys2Proof.Machine
end

section
/-! SUPPORT. The receive of a frame that is there in full, and of one that stalls in the window (`44_receive.md` R117 to
R132). -/

namespace Sys2Proof.Machine

/-! ### A frame that is there in full -/

theorem clampLen_le (b : Byte) : (clampLen b).toNat ≤ 8 := (clampLen_toNat b).trans_le (min_le_right _ _)

/-- The first of the bytes written at the start of the payload, read back (R123, R128). -/
theorem memRead_memWrite_data (v : Vector Byte Config.payloadSize) (data tail : List Byte)
    (h : data.length ≤ Config.payloadSize) : memRead (memWrite v 0 (data ++ tail)) 0 data.length = data := by
  rw [memWrite_append, memRead_memWrite_before _ _ _ _ (Nat.le_add_left ..)]
  simpa [memRead] using memRead_memWrite v 0 data (by omega)

theorem memByte_memWrite (v : Vector Byte Config.payloadSize) {bs : List Byte} {b : Byte} {j : Nat} (hj : bs[j]? = some b)
    (h : bs.length ≤ Config.payloadSize) : memByte (memWrite v 0 bs) j = b := by
  rw [memByte, (memWrite_payloadFrom v bs).getElem?_written hj h, Option.getD_some]

/-- Steps 6 and 7 in `CRC8` mode once data, counter and checksum byte are in (R127 to R130, D2). -/
theorem verifyFrame_withFrame (p : Config.Params) (hp : p.coversCounter = false) {s : State} {m : Nat} {sl : Slot}
    {ts id : Word32} {l c k : Byte} {data : List Byte} (hm : sl.crcMode = .crc8) (hlen : data.length + 2 = min l.toNat 8)
    (hs : s.slots[m]? = some (sl.withFrame ts l id (data ++ [c, k]))) :
    verifyFrame p m s = .next ((s.setSlot m { sl.withFrame ts l id (data ++ [c, k]) with
      ctr := c, crc := crc8 p.table data }).finish (if crc8 p.table data = k then .none else .crcMismatch)) := by
  have hl : (sl.withFrame ts l id (data ++ [c, k])).len.toNat = data.length + 2 := (clampLen_toNat l).trans hlen.symm
  have hcovered : coveredBytes p (data.length + 2) = data.length := by rw [coveredBytes, hp]; rfl
  have hfit : (data ++ [c, k]).length ≤ Config.payloadSize := by simp [Config.payloadSize]; omega
  have hdata : memRead (sl.withFrame ts l id (data ++ [c, k])).payload 0 data.length = data :=
    memRead_memWrite_data sl.payload data [c, k] (by simp at hfit; omega)
  have hctr : memByte (sl.withFrame ts l id (data ++ [c, k])).payload data.length = c :=
    memByte_memWrite sl.payload (by simp) hfit
  have hsum : memByte (sl.withFrame ts l id (data ++ [c, k])).payload (data.length + 1) = k :=
    memByte_memWrite sl.payload (by simp) hfit
  rw [verifyFrame_crc8 p hs hm (by omega) (by omega), hl, hcovered, hdata, Nat.add_sub_cancel, hctr,
    show data.length + 2 - 1 = data.length + 1 from rfl, hsum]

/-- A whole frame that is there is received, and its end decides fault `f` and final slot `sl'`; nothing else changes. -/
theorem receiveFrame_completes (p : Config.Params) {s : State} {m : Nat} {tmo : Word32} {sl sl' : Slot} {ts : Word32}
    {l : Byte} {id : Word32} {pl gap rest : List Byte} {f : FaultReason} (hi : s.init = true)
    (hs : s.slots[m]? = some sl) (hr : Move.reset ∉ s.env) (hp : pl.length = min l.toNat 8) (hg : (0xBB : Byte) ∉ gap)
    (hlen : pl.length + gap.length ≤ 8) (hq : s.rxq = 0xAA :: (wireHeader ts l id ++ pl ++ gap ++ 0xBB :: rest))
    (hv : ∀ s', s'.slots[m]? = some (sl.withFrame ts l id pl) →
      verifyFrame p m s' = .next ((s'.setSlot m sl').finish f)) :
    ∃ t, receiveFrame p m tmo s = .next t ∧
      t = { s with
        slots := s.slots.set m sl'
        fault := f
        rx := t.rx
        rxq := t.rxq
        clk := t.clk
        env := t.env
        responses := s.responses ++ [⟨statusOf f, none⟩] } ∧
      t.rx.state = .idle ∧ s.EnvRan t rest := by
  obtain ⟨s', hrecv, henv, hslots, hrest⟩ := receiveFrame_wire p (tmo := tmo) hi hs hr hp hg hlen hq
  have hslot : s'.slots[m]? = some (sl.withFrame ts l id pl) := by
    rw [hslots, List.getElem?_set_self (slot_lt hs)]
  refine ⟨_, hrecv.trans (hv s' hslot), ?_, rfl, henv⟩
  simp only [State.setSlot, State.finish, State.respond, hslots, List.set_set]
  rw [hrest]

/-! ### The partial slot of a run of window bytes -/

theorem absorb_ts (bs : List Byte) (i : Nat) (sl : Slot) (h : i + bs.length ≤ 4) :
    absorb i bs sl = some { sl with ts := bs.foldl fold sl.ts } := by
  induction bs generalizing i sl with
  | nil => rfl
  | cons b bs ih =>
    simp only [List.length_cons] at h
    simp only [absorb, windowByte_ts (show i < 4 by omega)]
    exact ih (i + 1) _ (by omega)

theorem absorb_id (bs : List Byte) (i : Nat) (sl : Slot) (h5 : 4 < i) (h : i + bs.length ≤ 9) :
    absorb i bs sl = some { sl with id := bs.foldl fold sl.id } := by
  induction bs generalizing i sl with
  | nil => rfl
  | cons b bs ih =>
    simp only [List.length_cons] at h
    simp only [absorb, windowByte_id h5 (show i < 9 by omega)]
    exact ih (i + 1) _ (by omega) (by omega)

theorem absorb_len (l : Byte) (ws : List Byte) (sl : Slot) :
    absorb 4 (l :: ws) sl = absorb 5 ws { sl with len := clampLen l } := by
  simp only [absorb, windowByte_len]

/-- A run of window bytes, cut after `n` of them, or at its end if it is shorter. -/
theorem absorb_take_drop (n i : Nat) (ws : List Byte) (sl : Slot) :
    absorb i ws sl = (absorb i (ws.take n) sl).bind (absorb (i + n) (ws.drop n)) := by
  obtain hn | hn := Nat.le_total n ws.length
  · have happ := absorb_append i (ws.take n) (ws.drop n) sl
    rwa [List.take_append_drop, List.length_take, Nat.min_eq_left hn] at happ
  · rw [List.take_of_length_le hn, List.drop_of_length_le hn]
    exact (Option.bind_fun_some _).symm

/-- `LEN` after window bytes `ws` (R67, R121). -/
def lenAfter (ws : List Byte) (sl : Slot) : Byte := if let some l := ws[4]? then clampLen l else sl.len

/-- The slot after window bytes `ws`, as far as they go (R120 to R124, R132). -/
def Slot.after (sl : Slot) (ws : List Byte) : Slot :=
  { sl with
    ts := (ws.take 4).foldl fold sl.ts
    len := lenAfter ws sl
    id := ((ws.drop 5).take 4).foldl fold sl.id
    payload := memWrite sl.payload 0 ((ws.drop 9).take (lenAfter ws sl).toNat) }

theorem lenAfter_short {ws : List Byte} (sl : Slot) (h : ws[4]? = none) : lenAfter ws sl = sl.len := by
  rw [lenAfter, h]

theorem lenAfter_long {ws : List Byte} {l : Byte} (sl : Slot) (h : ws[4]? = some l) : lenAfter ws sl = clampLen l := by
  rw [lenAfter, h]

/-- Up to four window bytes are folds of the timestamp. -/
theorem absorb_short {ws : List Byte} (sl : Slot) (h : ws[4]? = none) : absorb 0 ws sl = some (sl.after ws) := by
  have hlen : ws.length ≤ 4 := List.getElem?_eq_none_iff.1 h
  rw [absorb_ts ws 0 sl (by omega), Slot.after, lenAfter_short sl h, List.take_of_length_le hlen,
    List.drop_of_length_le (by omega), List.drop_of_length_le (by omega), List.take_nil, List.take_nil]
  rfl

/-- From index 9 on: the payload, as far as the bytes go, and behind it bytes that are dropped (R123, R124). -/
theorem absorb_from_payload (ws : List Byte) (sl : Slot) (h8 : sl.len.toNat ≤ 8)
    (hg : Config.endDelim ∉ ws.drop sl.len.toNat) :
    absorb 9 ws sl = some { sl with payload := memWrite sl.payload 0 (ws.take sl.len.toNat) } := by
  have hstored := absorb_payload (ws.take sl.len.toNat) 0 sl (by simp) h8
  rw [absorb_take_drop sl.len.toNat, hstored, Option.bind_some]
  exact absorb_gap _ _ _ le_rfl hg

/-- From index 5 on: the identifier first, as far as the bytes go (R122). -/
theorem absorb_from_id (ws : List Byte) (sl : Slot) (h8 : sl.len.toNat ≤ 8)
    (hg : Config.endDelim ∉ ws.drop (4 + sl.len.toNat)) :
    absorb 5 ws sl = some { sl with
      id := (ws.take 4).foldl fold sl.id
      payload := memWrite sl.payload 0 ((ws.drop 4).take sl.len.toNat) } := by
  rw [absorb_take_drop 4, absorb_id _ 5 sl (by omega) (by simp; omega), Option.bind_some]
  exact absorb_from_payload _ _ h8 (by rwa [List.drop_drop])

/-- With the length byte there, a run of window bytes goes as far into identifier, payload and the search as it is long. -/
theorem absorb_long {ws : List Byte} {l : Byte} (sl : Slot) (h : ws[4]? = some l)
    (hg : Config.endDelim ∉ ws.drop (9 + (clampLen l).toNat)) : absorb 0 ws sl = some (sl.after ws) := by
  have hdrop : ws.drop 4 = l :: ws.drop 5 := by
    obtain ⟨hlt, rfl⟩ := List.getElem?_eq_some_iff.1 h
    exact List.drop_eq_getElem_cons hlt
  rw [absorb_take_drop 4, absorb_ts _ 0 sl (by simp), Option.bind_some, hdrop, Slot.after, lenAfter_long sl h,
    absorb_len, absorb_from_id _ _ (clampLen_le l) (by rwa [List.drop_drop, ← Nat.add_assoc]), List.drop_drop]

/-- Payload byte by byte after window bytes `ws` (R123). -/
theorem Slot.after_payload (sl : Slot) (ws : List Byte) (k : Nat) (hk : k < Config.payloadSize) :
    (sl.after ws).payload[k] =
      if ∃ l, ws[4]? = some l ∧ k < l.toNat then (ws[9 + k]?).getD sl.payload[k] else sl.payload[k] := by
  have hk8 : k < 8 := hk
  have hP := memWrite_payloadFrom sl.payload ((ws.drop 9).take (lenAfter ws sl).toNat) k hk
  rw [List.getElem?_take, List.getElem?_drop] at hP
  refine hP.trans ?_
  cases h : ws[4]? with
  | none =>
    have hout : ws[9 + k]? = none := by
      rw [List.getElem?_eq_none_iff] at h ⊢
      omega
    simp [hout]
  | some l =>
    have hiff : k < (clampLen l).toNat ↔ k < l.toNat := by rw [clampLen_toNat]; omega
    rw [lenAfter_long sl h]
    by_cases hl : k < l.toNat
    · simp [hiff, hl]
    · simp [hiff, hl]

/-- With `RXQ` empty, an advance of the clock to the end of the budget ends the wait (R119). -/
theorem awaitByte_advance {s : State} {ms : Word32} (hq : s.rxq = []) (hb : s.rx.tmo ≤ s.clk + ms - s.rx.t0) :
    awaitByte [.advance ms] s = .expired { s.advance ms with env := [] } := by
  have hspent : budgetSpent { s.advance ms with env := [] } = true := decide_eq_true hb
  rw [awaitByte, awaitByte, poll_nil (s := { s.advance ms with env := [] }) hq, if_pos hspent]

/-- The window bytes are there, one poll for each; then the clock spends the budget while `RXQ` is empty (R119, R132). -/
theorem receiveFrame_stalls (p : Config.Params) {s : State} {m : Nat} {tmo ms : Word32} {sl sl' : Slot} {ws : List Byte}
    (hi : s.init = true) (hs : s.slots[m]? = some sl) (hlen : ws.length ≤ 17) (htmo : tmo ≤ ms)
    (hq : s.rxq = Config.startDelim :: ws) (he : s.env = List.replicate ws.length .block ++ [.advance ms])
    (ha : absorb 0 ws sl = some sl') :
    ∃ rx : Rx, rx.state = .idle ∧ receiveFrame p m tmo s = .next { s with
      slots := s.slots.set m sl'
      fault := .timeout
      rx := rx
      rxq := []
      clk := s.clk + ms
      env := []
      responses := s.responses ++ [⟨.fail, none⟩] } := by
  obtain ⟨n, hn⟩ : ∃ n, 18 = ws.length + (n + 1) := ⟨17 - ws.length, by omega⟩
  obtain ⟨rx, hrx, htmo', -⟩ := receiveWindow_absorb_turns p m (n + 1) ws (s.inWindow m tmo ws) sl sl' [.advance ms]
    hs rfl he hn.ge (by rwa [← hn, Nat.sub_self])
  have hspent : rx.tmo ≤ s.clk + ms - s.clk := by
    rw [add_sub_cancel_left, htmo']
    exact htmo
  refine ⟨{ rx with i := BitVec.ofNat 5 ws.length, t0 := s.clk, state := .idle }, rfl, ?_⟩
  rw [receiveFrame_start p tmo hi (slot_lt hs) hq, hn, hrx, receiveWindow_succ, awaitByte_advance rfl hspent,
    show 18 - (n + 1) = ws.length by omega]
  rfl

end Sys2Proof.Machine
end

section
/-! The statements about the receive (`44_receive.md`), settled. -/

namespace Sys2Proof.Machine

/-- Settles O40: the wait for a byte and the loop over the window are runs of the machine, by induction over the schedule and
over the window. -/
theorem blockingProcedureIsTheStateMachine : Obligations.BlockingProcedureIsTheStateMachine := by
  intro s m tmo hi hm
  obtain ⟨t, ht, ⟨hrej, -⟩ | ⟨-, -, hend⟩⟩ := receiveFrame_spec Config.params m tmo s
  · exact absurd hrej (by simp [hi, hm])
  · obtain ⟨s1, hs1, hreach⟩ := receiveFrame_reached hi hm ht
    obtain ⟨k, hk⟩ := hreach.run
    refine ⟨s1, k, t, hs1, ht, hk, ?_⟩
    obtain ⟨n, -, -, ⟨f, hf, -⟩ | ⟨-, q, hW⟩⟩ | hcut := hend
    · exact .inl hf.1
    · exact .inr hW.state_eq
    · exact .inl hcut.idle

/-- Settles O30: in `None` mode the end of the frame leaves the slot as the window wrote it. -/
theorem receiveRebuildsTheFrame : Obligations.ReceiveRebuildsTheFrame := by
  intro s m tmo sl ts l id pl gap rest hi hs hm hr hp hg hlen hq
  obtain ⟨t, ht, htt, hidle, henv⟩ := receiveFrame_completes Config.params (tmo := tmo) (f := .none) hi hs hr hp hg hlen hq
    fun s' hs' => by rw [setSlot_same hs', verifyFrame_none _ hs' hm]
  rw [Slot.withFrame, clampLen_eq hp] at htt
  exact ⟨t, _, ht, memWrite_payloadFrom sl.payload pl, htt, hidle, henv⟩

/-- Settles O31: the checksum of the data decides between success and `CrcMismatch`; the slot is the same in both. -/
theorem receiveVerifiesTheChecksum : Obligations.ReceiveVerifiesTheChecksum := by
  intro s m tmo sl ts l id data c k gap rest hi hs hm hr hp hg hlen hq
  obtain ⟨t, ht, htt, hidle, henv⟩ := receiveFrame_completes Config.params (tmo := tmo) hi hs hr (by simpa using hp) hg
    (by simpa using hlen) hq fun s' => verifyFrame_withFrame Config.params rfl hm hp
  rw [Slot.withFrame, clampLen_eq hp, apply_ite statusOf] at htt
  exact ⟨t, _, ht, memWrite_payloadFrom sl.payload _, htt, hidle, henv⟩

/-- Settles O32: the frame is stored, and its end is a mismatch without a look at the payload. -/
theorem receiveWithoutRoomForChecksumFails : Obligations.ReceiveWithoutRoomForChecksumFails := by
  intro s m tmo sl ts l id pl gap rest hi hs hm hr hp hl hg hlen hq
  have hl2 : l.toNat < 2 := hl
  have hclamp : clampLen l = l := clampLen_of_le (show l.toNat ≤ 8 by omega)
  obtain ⟨t, ht, htt, hidle, henv⟩ := receiveFrame_completes Config.params (tmo := tmo) (f := .crcMismatch) hi hs hr
    (by omega) hg hlen hq fun s' hs' => by
      rw [setSlot_same hs', verifyFrame_short _ hs' hm (show (clampLen l).toNat < 2 by rwa [hclamp])]
  rw [Slot.withFrame, hclamp] at htt
  exact ⟨t, _, ht, memWrite_payloadFrom sl.payload pl, htt, hidle, henv⟩

/-- Settles O34: the slot is `Slot.after` the window bytes, which hold no end delimiter where one is searched for. -/
theorem timeoutKeepsThePartialSlot : Obligations.TimeoutKeepsThePartialSlot := by
  intro s m tmo sl ws ms hi hs hlen htmo hg hq he
  have ha : absorb 0 ws sl = some (sl.after ws) := by
    cases h : ws[4]? with
    | none => exact absorb_short sl h
    | some l =>
      refine absorb_long sl h fun hmem => ?_
      obtain ⟨j, hj⟩ := List.mem_iff_getElem?.1 hmem
      rw [List.getElem?_drop, clampLen_toNat] at hj
      exact hg l _ _ h (Nat.le_add_right _ j) hj rfl
  obtain ⟨rx, hidle, ht⟩ := receiveFrame_stalls Config.params hi hs hlen htmo hq he ha
  exact ⟨_, (sl.after ws).payload, ht, rfl, hidle, sl.after_payload ws⟩

/-- Settles O39: with no reset a receive is rejected, or has consumed what `Received` says. -/
theorem receiveConsumesAtMostNineteenBytes : Obligations.ReceiveConsumesAtMostNineteenBytes := by
  intro s t m tmo hr h
  obtain ⟨t', ht, hend⟩ := receiveFrame_spec Config.params m tmo s
  cases ht.symm.trans h
  obtain ⟨-, rfl⟩ | ⟨-, -, ⟨k, hk, hR, -⟩ | hcut⟩ := hend
  · exact ⟨⟨0, [], by simp [arrivals, elapsed]⟩, rfl, rfl, rfl, rfl, rfl, fun _ _ => rfl, rfl⟩
  · obtain ⟨ran, he, hlen, hq, hclk⟩ := hR.env
    refine ⟨⟨k, ran, hk, hlen, he, hq, hclk⟩, ?_⟩
    rw [hR.rest]
    exact ⟨rfl, rfl, rfl, rfl, rfl, fun _ => hR.slots_other, hR.crcMode_eq⟩
  · exact absurd hcut.reset_mem hr

/-- Settles O42: the advance to the end of the budget, then the row of a spent budget. -/
theorem clockCanEndEveryWait : Obligations.ClockCanEndEveryWait := by
  intro s hstate hq
  obtain ⟨ms, hspent⟩ := exists_advance_spends_budget s.clk s.rx.t0 s.rx.tmo
  exact ⟨ms, _, _, step_advance rfl,
    step_window_expired (s := ({ s with env := [] } : State).advance ms) hstate hq rfl hspent, rfl, rfl, rfl, rfl⟩

/-- Settles O43: a receive that ends by the budget, or waits, has fewer than 19 bytes behind it and finds `RXQ` empty. -/
theorem receiveEndsOnceTheWindowIsThere : Obligations.ReceiveEndsOnceTheWindowIsThere := by
  intro s m tmo hi hm hlen hr
  obtain ⟨t, ht, ⟨hrej, -⟩ | ⟨-, -, ⟨k, -, hR, ⟨f, ⟨hidle, hf, hresp⟩, htmo⟩ | ⟨hk, q, hW⟩⟩ | hcut⟩⟩ :=
    receiveFrame_spec Config.params m tmo s
  · exact absurd hrej (by simp [hi, hm])
  · refine ⟨t, ht, hidle, fun h => ?_, _, statusOf_ne_invalidConfig f, hresp⟩
    obtain ⟨hk, hq⟩ := htmo (hf.symm.trans h)
    exact hR.rxq_ne_nil (by omega) hq
  · obtain ⟨-, hq, -⟩ := hW.state_eq
    exact absurd hq (hR.rxq_ne_nil (by omega))
  · exact absurd hcut.reset_mem hr

/-- Settles O28: the precondition is checked before anything is read. -/
theorem receiveBeforeBeginIsRejected : Obligations.ReceiveBeforeBeginIsRejected :=
  fun _ m tmo hi => receiveFrame_rejected Config.params m tmo (.inl hi)

/-- Settles O35: the last row of R131. -/
theorem waitingReceiveMakesNoProgress : Obligations.WaitingReceiveMakesNoProgress :=
  fun _ hstate hq he hb => step_window_waits hstate hq he (decide_eq_false (BitVec.not_le.2 hb))

/-- Settles O36: the row of a spent budget. -/
theorem spentBudgetEndsTheWait : Obligations.SpentBudgetEndsTheWait :=
  fun _ hstate hq he hb => step_window_expired hstate hq he hb

end Sys2Proof.Machine
end

section
/-! SUPPORT. The two faults of a receive that need no checksum and no clock (`60_exceptions.md` R143, R145), and what an
operation answers its caller (R140, R141). -/

namespace Sys2Proof.Machine

/-! ### Receives without a frame -/

/-- With no byte there, or a first byte that is not the start delimiter, the receive ends at once; the byte is gone
(R116, R117, R143). -/
theorem receiveFrame_noIncomingData (p : Config.Params) {s : State} {m : Nat} (tmo : Word32) (hi : s.init = true)
    (hm : m < s.slots.length) (h : s.rxq = [] ∨ ∃ b q, s.rxq = b :: q ∧ b ≠ Config.startDelim) :
    receiveFrame p m tmo s = .next (({ s.acceptReceive m tmo with rxq := s.rxq.tail } : State).finish .noIncomingData) := by
  obtain hq | ⟨b, q, hq, hb⟩ := h
  · have htail : s.rxq.tail = s.rxq := by rw [hq, List.tail_nil]
    rw [htail]
    exact receiveFrame_empty p tmo hi hm hq
  · rw [receiveFrame_stray p tmo hi hm hq hb, hq, List.tail_cons]

/-- A whole window that is there without an end delimiter from index `9 + LEN` on: header and payload are stored, and the
last window byte ends the receive without a look at the mode of the slot (R125, R145). -/
theorem receiveFrame_withoutEnd (p : Config.Params) {s : State} {m : Nat} {tmo : Word32} {sl : Slot} {ts : Word32}
    {l : Byte} {id : Word32} {pl gap rest : List Byte} (hi : s.init = true) (hs : s.slots[m]? = some sl)
    (hr : Move.reset ∉ s.env) (hp : pl.length = min l.toNat 8) (hg : Config.endDelim ∉ gap)
    (hlen : pl.length + gap.length = 9)
    (hq : s.rxq = Config.startDelim :: (wireHeader ts l id ++ pl ++ gap ++ rest)) :
    ∃ s', receiveFrame p m tmo s = .next (s'.finish .missingEndDelimiter) ∧ s.EnvRan s' rest ∧
      s'.slots = s.slots.set m (sl.withFrame ts l id pl) ∧
      s' = { s with slots := s'.slots, rx := s'.rx, rxq := s'.rxq, clk := s'.clk, env := s'.env } := by
  have hwindow : (wireHeader ts l id ++ pl ++ gap).length + 0 = 18 := by simp; omega
  have habsorb := absorb_frame ts l id pl gap sl hp hg
  obtain ⟨s', hrecv, henv, -, hslots, hrest, -⟩ := receiveWindow_absorb p m (wireHeader ts l id ++ pl ++ gap) rest 0
    (s.inWindow m tmo (wireHeader ts l id ++ pl ++ gap ++ rest)) sl (sl.withFrame ts l id pl) hs hwindow.le rfl hr
    (by rwa [hwindow])
  rw [hwindow] at hrecv
  exact ⟨s', (receiveFrame_start p tmo hi (slot_lt hs) hq).trans hrecv, henv, hslots, hrest⟩

/-! ### What an operation answers -/

/-- Everything operation `i` can answer its caller: a rejection, which is the whole effect; `OK`; the end of a receive; or
nothing, from a receive still in flight or an operation that a reset cuts off (R140, R141, R163). -/
inductive Answer (s : State) (i : Instr) : State → Prop
  | rejected : Answer s i s.reject
  | succeeded {t : State} (r : Option Byte) (hrx : t.rx = s.rx) (ht : t.responses = s.responses ++ [⟨.ok, r⟩]) :
      Answer s i t
  | receiveEnded {m : Nat} {tmo : Word32} {f : FaultReason} {t : State} (hi : i = .xcvRecv m tmo) (ht : Ended f s t) :
      Answer s i t
  | receiveWaits {m : Nat} {tmo : Word32} {t : State} (hi : i = .xcvRecv m tmo) (hbusy : t.rx.state ≠ .idle)
      (ht : t.responses = s.responses) : Answer s i t
  | cutOff {t : State} (hr : Move.reset ∈ s.env) (ht : t.responses = s.responses) : Answer s i t

theorem OpEffect.answer {i : Instr} {s t : State} (h : OpEffect s i t) : Answer s i t := by
  cases h with
  | rejected => exact .rejected
  | computed | faultRead | constructed | packedValues | packedText | begun | sent => exact .succeeded _ rfl rfl
  | sendCutOff he => exact .cutOff (reset_mem_of_cut he) rfl
  | received _ _ _ hE =>
    obtain ⟨f, hf⟩ | ⟨q, hW⟩ := hE
    · exact .receiveEnded rfl hf
    · obtain ⟨hstate, -, -, hresp, -⟩ := hW.state_eq
      exact .receiveWaits rfl (by simp [hstate]) hresp
  | receiveCutOff _ _ hc =>
    have hr := hc.reset_mem
    obtain ⟨ran, s0, -, rfl, -, -, -, -, hresp⟩ := hc
    exact .cutOff hr hresp

/-- Of an operation's answers only a rejection gives `INVALID_CONFIG` (R141). -/
theorem Answer.eq_reject {i : Instr} {s t : State} {r : Option Byte} (h : Answer s i t)
    (hr : t.responses = s.responses ++ [⟨.invalidConfig, r⟩]) : t = s.reject := by
  have hlast {x : Response} (ht : t.responses = s.responses ++ [x]) : x.status = .invalidConfig := by
    obtain rfl : x = ⟨.invalidConfig, r⟩ := by simpa using ht.symm.trans hr
    rfl
  have hnone (ht : t.responses = s.responses) : False := by simpa using ht.symm.trans hr
  cases h with
  | rejected => rfl
  | succeeded _ _ ht => cases hlast ht
  | receiveEnded _ ht =>
    obtain ⟨-, -, hresp⟩ := ht
    exact absurd (hlast hresp) (statusOf_ne_invalidConfig _)
  | receiveWaits _ _ ht => exact (hnone ht).elim
  | cutOff _ ht => exact (hnone ht).elim

end Sys2Proof.Machine
end

section
/-! The statements about the exceptions (`60_exceptions.md`), settled. -/

namespace Sys2Proof.Machine

/-- Settles O33: the window is taken in whole, and its last byte ends the receive. -/
theorem missingEndDelimiterAfterTheWholeWindow : Obligations.MissingEndDelimiterAfterTheWholeWindow := by
  refine ⟨rfl, fun s m tmo sl ts l id pl gap rest hi hs hr hp hg hlen hq => ?_⟩
  obtain ⟨s', hrecv, henv, hslots, hrest⟩ :=
    receiveFrame_withoutEnd Config.params (tmo := tmo) hi hs hr hp hg hlen hq
  rw [Slot.withFrame, clampLen_eq hp] at hslots
  refine ⟨_, _, hrecv, memWrite_payloadFrom sl.payload pl, ?_, rfl, henv⟩
  rw [← hslots, hrest]
  rfl

/-- Settles O52: from an idle parser every answer but a waiting receive's leaves the parser idle and is one response. -/
theorem everyOperationGivesOneResponse : Obligations.EveryOperationGivesOneResponse := by
  intro i s t hidle hr h
  cases (exec_effect h).answer with
  | rejected => exact ⟨fun _ => ⟨_, rfl, nofun⟩, absurd hidle⟩
  | succeeded r hrx ht => exact ⟨fun _ => ⟨_, ht, nofun⟩, absurd (hrx ▸ hidle)⟩
  | receiveEnded hi ht =>
    obtain ⟨hend, -, hresp⟩ := ht
    exact ⟨fun _ => ⟨_, hresp, fun _ => ⟨_, _, hi⟩⟩, absurd hend⟩
  | receiveWaits hi hbusy ht => exact ⟨fun hend => absurd hend hbusy, fun _ => ⟨ht, _, _, hi⟩⟩
  | cutOff hmem => exact absurd hmem hr

/-- Settles O53: an answer of `INVALID_CONFIG` is a rejection, and a rejection is the response and nothing else. -/
theorem invalidConfigurationHasNoEffect : Obligations.InvalidConfigurationHasNoEffect :=
  fun _ _ _ _ h hr => (exec_effect h).answer.eq_reject hr

/-- Settles O29: the receive ends before the first wait, so neither the budget nor the schedule is looked at. -/
theorem noIncomingDataOnEmptyStreamOrStrayByte : Obligations.NoIncomingDataOnEmptyStreamOrStrayByte :=
  ⟨rfl, fun s m tmo hi hm h => ⟨{ (s.acceptReceive m tmo).rx with state := .idle }, rfl,
    receiveFrame_noIncomingData Config.params tmo hi hm h⟩⟩

end Sys2Proof.Machine
end

section
/-! The statements about the reset (`70_reset_and_hazards.md`), settled. -/

namespace Sys2Proof.Machine

/-- Settles O27: `f` is the frame the same send writes along an empty schedule; the reset lets through one byte of it for
each turn the block had, and what the send had prepared in the slot and in `SCRATCH` does not outlive it. -/
theorem resetCutsTheSendShort : Obligations.ResetCutsTheSendShort := by
  intro s m ts sl ran rem hi hs hl hc he hr hb
  obtain ⟨_, _, -, -, -, huncut⟩ :=
    sendFrame_accepted Config.params (s := { s with env := [] }) ts hi hs hl hc (fun hmem => absurd hmem List.not_mem_nil)
  obtain ⟨-, -, -, -, -, hend⟩ := wireFrame_getElem? (sendPayload Config.params sl) ts hl
  exact ⟨_, wireFrame sl (sendPayload Config.params sl) ts, _, huncut, rfl, wireFrame_length _ _ _ hl, hend,
    sendFrame_cut Config.params ts hi hs hl hc he hr hb, rfl, rfl⟩

/-- Settles O7: every slot is `Slot.reset`, whose payload is zero throughout. -/
theorem resetLeavesTheSpecsValues : Obligations.ResetLeavesTheSpecsValues := by
  refine ⟨rfl, fun n => ⟨List.length_replicate, rfl, rfl, rfl, fun sl hsl => ?_⟩⟩
  obtain rfl : sl = Slot.reset := List.eq_of_mem_replicate hsl
  exact ⟨rfl, rfl, rfl, rfl, rfl, rfl, fun k hk => Vector.getElem_replicate hk⟩

/-- Settles O8: with the reset first in the schedule the step is `State.blockReset`, which writes the block's own state
only. -/
theorem resetEventLeavesTheEnvironmentAlone : Obligations.ResetEventLeavesTheEnvironmentAlone :=
  fun _ _ he => ⟨_, step_reset he, List.length_replicate, fun _ hsl => List.eq_of_mem_replicate hsl,
    rfl, rfl, rfl, rfl, rfl, rfl, rfl, rfl, rfl, rfl⟩

/-- Settles O44: the reset slots have `LEN` 0, and the parser is idle. -/
theorem invariantHoldsAfterReset : Obligations.InvariantHoldsAfterReset :=
  fun _ hn => (SlotsOk.replicate_reset hn).inv_of_idle rfl

end Sys2Proof.Machine
end
